-- ==== Sys2Proof/Word.lean ====
section
/-! DEFINITION. The two widths of the hardware: an 8-bit datum and a 16-bit bus address or program counter
(spec/00_scope.md R6, R7; spec/20_memory.md R30). -/

namespace Sys2Proof

/-- DATA_BITS = REG_BITS = 8: a bus datum, a register, the status register (R6). -/
abbrev Byte := BitVec 8

/-- ADDR_BITS = PC_BITS = 16: a bus address, the program counter (R6). -/
abbrev Word := BitVec 16

end Sys2Proof
end

