-- ==== Sys2Proof/Config.lean ====
section
/-! DEFINITION. What is fixed for the machine: the sizes the spec gives, the two PRG-ROM lengths, and the OPEN
reset parameters that construction takes as an argument (spec/00_scope.md R6, spec/10_state.md R23). -/

namespace Sys2Proof

/-- RAM_SIZE: the internal RAM's capacity in bytes (R6, R18). -/
def Config.ramSize : Nat := 2048

/-- RESET_SP: the one reset value the source gives (R12, R23). -/
def Config.resetSp : Byte := 0xFF#8

/-- The one mapper identifier that constructs (R20, R42). -/
def Config.supportedMapper : Nat := 0

/-- PRG_LEN: the two lengths a PRG-ROM buffer may have (R19, R43). No other length can be held in a state. -/
inductive PrgLen where
  | kib16
  | kib32
  deriving DecidableEq, Repr

/-- PRG_LEN in bytes (R43). -/
def PrgLen.bytes : PrgLen → Nat
  | .kib16 => 16384
  | .kib32 => 32768

/-- The OPEN parameters of power-on (R6, R23; decisions D6, D7): the spec states no value for any of them, so
construction takes them as an argument and a claim about construction quantifies over them. -/
structure PowerOn where
  resetPc : Word
  resetA  : Byte
  resetX  : Byte
  resetY  : Byte
  resetP  : Byte
  ramInit : Vector Byte 2048
  deriving DecidableEq, Repr

/-- The values of the spec's own examples: 0 for every OPEN parameter (R6, R23).
DESIGN CHOICE (log entries 3 and 4), unsafe: the source gives no value. -/
def PowerOn.zero : PowerOn where
  resetPc := 0#16
  resetA  := 0#8
  resetX  := 0#8
  resetY  := 0#8
  resetP  := 0#8
  ramInit := Vector.replicate 2048 0#8

end Sys2Proof
end

