-- ==== Sys2Proof/Machine/Memory.lean ====
section
/-! DEFINITION. Memory as plain data: a list of (index, byte) pairs in one canonical form, used for the internal
RAM and for the PRG-ROM image (spec/10_state.md R18, R19). -/

namespace Sys2Proof.Machine

/-- The bytes of a memory by index, indices strictly rising, no entry equal to `Memory.unlisted`. -/
abbrev Memory := List Host.Cell

/-- What an unlisted index reads as. DESIGN CHOICE (log entries 4 and 5), unsafe: the spec gives neither RAM_INIT
nor a PRG-ROM image; 0x00 is the value of its own examples (spec/95_test_vectors.md, conventions). -/
def Memory.unlisted : Byte := 0x00#8

/-- The byte at an index. -/
def Memory.get : Memory → Nat → Byte
  | [], _ => Memory.unlisted
  | (k, v) :: rest, i => if k = i then v else Memory.get rest i

/-- Without the entries of an index. -/
def Memory.erase : Memory → Nat → Memory
  | [], _ => []
  | (k, v) :: rest, i => if k = i then Memory.erase rest i else (k, v) :: Memory.erase rest i

/-- With an entry put before the first larger index. -/
def Memory.insert : Memory → Nat → Byte → Memory
  | [], i, b => [(i, b)]
  | (k, v) :: rest, i, b => if i < k then (i, b) :: (k, v) :: rest else (k, v) :: Memory.insert rest i b

/-- The byte at one index replaced; the canonical form is kept (writing `unlisted` removes the entry). -/
def Memory.set (m : Memory) (i : Nat) (b : Byte) : Memory :=
  if b = Memory.unlisted then Memory.erase m i else Memory.insert (Memory.erase m i) i b

/-- Canonical from a least index on. -/
def Memory.wfFrom : Nat → Memory → Bool
  | _, [] => true
  | lo, (k, v) :: rest => decide (lo ≤ k) && (v != Memory.unlisted) && Memory.wfFrom (k + 1) rest

/-- The canonical form: indices strictly rising, no entry equal to what an unlisted index reads as. -/
def Memory.wf (m : Memory) : Bool := Memory.wfFrom 0 m

/-- Every listed index lies below a size. -/
def Memory.below (n : Nat) (m : Memory) : Bool := m.all (fun c => decide (c.1 < n))

/-- The memory that holds a byte sequence from an index on. -/
def Memory.ofBytesFrom : Nat → List Byte → Memory
  | _, [] => []
  | i, b :: rest =>
    if b = Memory.unlisted then Memory.ofBytesFrom (i + 1) rest else (i, b) :: Memory.ofBytesFrom (i + 1) rest

/-- The memory that holds a byte sequence from index 0. -/
def Memory.ofBytes (bs : List Byte) : Memory := Memory.ofBytesFrom 0 bs

/-- The bytes written one after another from an index on, those at or past a size left out. -/
def Memory.setBytes (size : Nat) : Memory → Nat → List Byte → Memory
  | m, _, [] => m
  | m, i, b :: rest => Memory.setBytes size (if i < size then m.set i b else m) (i + 1) rest

end Sys2Proof.Machine
end

