-- ==== Sys2Proof/Syntax.lean ====
section
/-! DEFINITION. The instructions (one constructor of Instr per row of spec/opcode_table.json), the transient
Instruction value the decoder hands to the step, and the rows of an opcode table
(spec/10_state.md R21, spec/30_encoding.md R61, R65, R71). -/

namespace Sys2Proof

/-- The instruction set in scope, three operations and no more (spec/00_scope.md R3, spec/30_encoding.md R66).
An operand that does not fit its clause cannot be written down (spec/40_execution_cycle.md R89, decision D19). -/
inductive Instr where
  /-- BRK, implied (spec/43_system.md R105). -/
  | brk
  /-- ASL zero-page,X with its base address (spec/42_shift.md R100). -/
  | aslZpx (base : Byte)
  /-- AND immediate with its literal (spec/41_logical.md R95). -/
  | andImm (imm : Byte)
  deriving DecidableEq, Repr

/-- The five addressing modes the decoder supports (R61). No row in scope uses `zp` or `abs`. -/
inductive AddrMode where
  | imp
  | imm
  | zp
  | zpx
  | abs
  deriving DecidableEq, Repr

/-- The operation tag, which names the operation together with its addressing mode (R21, R71). `other` is a tag
that has no execution clause: no row of the machine's own table carries one; it exists so that the decoder on an
extended table (R76) and the step's answer to such a tag (R85) can be written. DESIGN CHOICE (log entry 17), safe. -/
inductive Tag where
  | brk
  | aslZeroPageX
  | andImmediate
  | other (n : Nat)
  deriving DecidableEq, Repr

/-- One row of an opcode table without its key (R65). -/
structure Row where
  tag    : Tag
  mode   : AddrMode
  bytes  : Nat
  cycles : Nat
  deriving DecidableEq, Repr

/-- A table that maps an opcode byte to its row (R65). -/
abbrev OpcodeTable := List (Byte × Row)

/-- The Instruction value: transient, produced by the decoder and consumed by the step (R21, R71). -/
structure Insn where
  opCode     : Tag
  shortValue : Option Byte
  longValue  : Option Word
  bytes      : Nat
  cycles     : Nat
  deriving DecidableEq, Repr

end Sys2Proof
end

