-- ==== Sys2Proof/WellFormed.lean ====
section
/-! DEFINITION. Well-formedness of what a caller could hand over wrongly: a row, a table, an Instruction value
(spec/30_encoding.md R60, R65, R76; spec/10_state.md R21; spec/40_execution_cycle.md R89). An Instr needs no check:
an ill-formed one cannot be written (all 256 operand bytes are legal, R67). -/

namespace Sys2Proof

/-- Operand bytes that follow the opcode byte in each mode (R61). -/
def AddrMode.operandBytes : AddrMode → Nat
  | .imp => 0
  | .imm => 1
  | .zp => 1
  | .zpx => 1
  | .abs => 2

/-- A row declares `bytes` equal to 1 plus its operand width (R76 b). -/
def Row.wellFormed (r : Row) : Bool := r.bytes == 1 + r.mode.operandBytes

/-- At most one row per opcode byte (R65). -/
def OpcodeTable.keysDistinct (t : OpcodeTable) : Bool := decide (t.map Prod.fst).Nodup

/-- Every row is well formed and no byte has two rows (R65, R76). -/
def OpcodeTable.wellFormed (t : OpcodeTable) : Bool :=
  OpcodeTable.keysDistinct t && t.all (fun e => e.2.wellFormed)

/-- An instruction is 1, 2 or 3 bytes long (R60). -/
def Insn.lengthOk (i : Insn) : Bool := decide (1 ≤ i.bytes) && decide (i.bytes ≤ 3)

/-- At most one of the two operand fields is present (R21). -/
def Insn.atMostOneOperand (i : Insn) : Bool := !(i.shortValue.isSome && i.longValue.isSome)

/-- The operand field each clause requires (R89): BRK none, ASL and AND a `short_value`. A tag without a clause
requires nothing. -/
def Insn.meetsClause (i : Insn) : Bool :=
  match i.opCode with
  | .brk => i.shortValue.isNone && i.longValue.isNone
  | .aslZeroPageX => i.shortValue.isSome && i.longValue.isNone
  | .andImmediate => i.shortValue.isSome && i.longValue.isNone
  | .other _ => true

/-- `bytes` and `cycles` are those of a row with the same tag (R71, R89). -/
def Insn.agreesWith (t : OpcodeTable) (i : Insn) : Bool :=
  t.any (fun e => e.2.tag == i.opCode && e.2.bytes == i.bytes && e.2.cycles == i.cycles)

/-- All the requirements on an Instruction value handed to the step (R89, decision D19). -/
def Insn.wellFormed (t : OpcodeTable) (i : Insn) : Bool :=
  i.lengthOk && i.atMostOneOperand && i.meetsClause && i.agreesWith t

end Sys2Proof
end

