-- ==== Sys2Proof/Decode.lean ====
section
/-! DEFINITION. The stream, the opcode table, the decoder with its two errors, and the encoder
(spec/30_encoding.md R60 to R77). -/

namespace Sys2Proof

open Sys2Proof.Machine (Memory)

/-- A finite byte sequence indexed from 0 (R62). -/
structure Stream where
  len   : Nat
  cells : Memory
  deriving DecidableEq, Repr

/-- `StreamRead(s, c)`, defined only below the stream's length (R62). -/
def Stream.read (s : Stream) (c : Nat) : Option Byte :=
  if c < s.len then some (s.cells.get c) else none

/-- A stream given by its bytes. -/
def Stream.ofBytes (bs : List Byte) : Stream := ⟨bs.length, Memory.ofBytes bs⟩

/-- BRK's row (R66; byte length decision D10, cycle count decision D9, log entry 7). -/
def rowBrk : Row := ⟨.brk, .imp, 1, 7⟩

/-- ASL zero-page,X's row (R66; cycle count decision D9, log entry 7). -/
def rowAsl : Row := ⟨.aslZeroPageX, .zpx, 2, 6⟩

/-- AND immediate's row (R66; cycle count decision D9, log entry 7). -/
def rowAnd : Row := ⟨.andImmediate, .imm, 2, 2⟩

/-- OPCODE_TABLE with its default contents (R65, R66). The three opcode bytes are decision D8.
PRESUMED (log entry 7), unsafe: the spec takes them from general knowledge. -/
def opcodeTable : OpcodeTable := [(0x00#8, rowBrk), (0x16#8, rowAsl), (0x29#8, rowAnd)]

/-- The row an opcode byte selects: the byte is matched whole (R65, R77). -/
def OpcodeTable.row : OpcodeTable → Byte → Option Row
  | [], _ => none
  | (k, r) :: rest, op => if k = op then some r else OpcodeTable.row rest op

/-- The decoder's two errors and what each records (R67, R68). -/
inductive DecodeError where
  /-- The opcode byte has no row: the byte and the cursor. -/
  | unsupportedOpcode (op : Byte) (cursor : Nat)
  /-- The instruction's bytes run past the end of the stream (or, decision D2, the cursor is there already):
  the cursor. -/
  | malformedOperand (cursor : Nat)
  deriving DecidableEq, Repr

/-- An 8-bit operand: the byte at cursor + 1 in the modes that carry one (R63). -/
def shortOperand (mode : AddrMode) (s : Stream) (c : Nat) : Option Byte :=
  match mode with
  | .imp => none
  | .imm => s.read (c + 1)
  | .zp => s.read (c + 1)
  | .zpx => s.read (c + 1)
  | .abs => none

/-- Two bytes of the stream as a 16-bit value, the first the low byte (R46, R64). -/
def littleEndian (lo hi : Byte) : Word := hi ++ lo

/-- A 16-bit operand: little-endian from cursor + 1 and cursor + 2 in absolute mode (R64). -/
def longOperand (mode : AddrMode) (s : Stream) (c : Nat) : Option Word :=
  match mode with
  | .imp => none
  | .imm => none
  | .zp => none
  | .zpx => none
  | .abs =>
    match s.read (c + 1), s.read (c + 2) with
    | some lo, some hi => some (littleEndian lo hi)
    | _, _ => none

/-- The Instruction a row gives at a cursor (R71). -/
def assemble (r : Row) (s : Stream) (c : Nat) : Insn where
  opCode     := r.tag
  shortValue := shortOperand r.mode s c
  longValue  := longOperand r.mode s c
  bytes      := r.bytes
  cycles     := r.cycles

/-- The decode algorithm, in the spec's order of checks (R69; R119 for which error wins). -/
def decode (t : OpcodeTable) (s : Stream) (c : Nat) : Except DecodeError Insn :=
  match s.read c with
  | none => .error (.malformedOperand c)
  | some op =>
    match t.row op with
    | none => .error (.unsupportedOpcode op c)
    | some r =>
      if c + r.bytes > s.len then .error (.malformedOperand c) else .ok (assemble r s c)

/-- The instruction an Instruction value stands for; none for one that breaks its clause's requirement or disagrees
with the table (R89, decision D19), and for a tag without a clause. -/
def Insn.toInstr (i : Insn) : Option Instr :=
  if i.wellFormed opcodeTable then
    match i.opCode, i.shortValue with
    | .brk, _ => some .brk
    | .aslZeroPageX, some b => some (.aslZpx b)
    | .aslZeroPageX, none => none
    | .andImmediate, some b => some (.andImm b)
    | .andImmediate, none => none
    | .other _, _ => none
  else none

/-- The Instruction value the decoder gives for an instruction (R66, R71). -/
def Instr.toInsn : Instr → Insn
  | .brk => ⟨rowBrk.tag, none, none, rowBrk.bytes, rowBrk.cycles⟩
  | .aslZpx base => ⟨rowAsl.tag, some base, none, rowAsl.bytes, rowAsl.cycles⟩
  | .andImm imm => ⟨rowAnd.tag, some imm, none, rowAnd.bytes, rowAnd.cycles⟩

/-- The bytes of an instruction in stream order, written from R61 and R66 (not from the decoder). -/
def encode : Instr → List Byte
  | .brk => [0x00#8]
  | .aslZpx base => [0x16#8, base]
  | .andImm imm => [0x29#8, imm]

/-- The bytes of a stream from a cursor on are the given ones. -/
def Stream.holds (s : Stream) : Nat → List Byte → Bool
  | _, [] => true
  | c, b :: rest => s.read c == some b && Stream.holds s (c + 1) rest

/-- The bytes of an instruction whose bits, numbered as spec/opcode_table.json numbers them, are `w`: byte 0 is bits
7 to 0, byte 1 is bits 15 to 8, bits at or above `nbits` are 0. Two bytes are the longest instruction of the table. -/
def tableBytes (nbits w : Nat) : List Byte :=
  [BitVec.ofNat 8 (w % 2 ^ nbits), BitVec.ofNat 8 ((w % 2 ^ nbits) / 256)]

/-- The instruction the decoder reads from a table word. -/
def decodeTableWord (nbits w : Nat) : Option Instr :=
  match decode opcodeTable (Stream.ofBytes (tableBytes nbits w)) 0 with
  | .ok i => i.toInstr
  | .error _ => none

end Sys2Proof
end

