-- ==== Sys2Proof/Machine/State.lean ====
section
/-! DEFINITION. The state of the machine as plain data, its reset, and the reasons a step, an access or a
construction can stop (spec/10_state.md R10 to R26, spec/60_exceptions.md R110 to R118). -/

namespace Sys2Proof.Machine

/-- What a completed cycle returns to the caller: the three-way outcome of spec/40_execution_cycle.md R88 less the
fault, which is the outcome `fault` of the step itself. -/
inductive Returned where
  /-- `Ok(n)`: the instruction completed, `n` cycles were consumed. -/
  | ok (cycles : Nat)
  /-- `Break(n)`: the instruction was BRK (spec/43_system.md R105); `n` cycles were consumed. -/
  | brk (cycles : Nat)
  deriving DecidableEq, Repr

/-- The state. `pc` to `ram` are the seven items of R10; `prgRom`, `prgLen` and `mapperId` are held by the block for
the whole session and never change (R19, R20; log entry 1); `out` is the model's own: the return value of the last
completed cycle, which nothing in the machine reads (R84, R88; log entry 2). -/
structure State where
  pc       : Word
  sp       : Byte
  a        : Byte
  x        : Byte
  y        : Byte
  p        : Byte
  ram      : Memory
  prgRom   : Memory
  prgLen   : PrgLen
  mapperId : Nat
  out      : Option Returned
  deriving DecidableEq, Repr

/-- What UnsupportedOpcode records when it comes from decode (R114 a). -/
structure OpcodeSite where
  op     : Byte
  cursor : Nat
  deriving DecidableEq, Repr

/-- The closed taxonomy of five errors with what each records (R110 to R115; payloads decisions D14, D23, log entry
13). Every one is fatal, precise and terminal (R116, R118): the outcome carries no next state. -/
inductive Fault where
  /-- Raised by construction when the mapper identifier is not 0 (R111). Safe: the spec's own stop. -/
  | unsupportedMapper (mapperId : Nat)
  /-- Raised by a bus read or write of 0x2000 to 0x7FFF (R112). Safe: the spec's own stop. -/
  | unmappedAddress (address : Word)
  /-- Raised by a bus write of 0x8000 to 0xFFFF (R113). Safe: the spec's own stop. -/
  | readOnlyViolation (address : Word)
  /-- Raised by decode for an opcode byte without a row, with the byte and the cursor; raised by the step for a tag
  without a clause, with nothing (R114, conflict C7). Safe: the spec's own stop. -/
  | unsupportedOpcode (site : Option OpcodeSite)
  /-- Raised by decode when the bytes run past the end of the stream, or the cursor is there (R115; decision D2, log
  entry 9). Safe: the machine stops where the original stops. -/
  | malformedOperand (cursor : Nat)
  deriving DecidableEq, Repr

/-- What the spec gives no meaning. -/
inductive Refusal where
  /-- An instruction whose arm of `exec` has no meaning yet. No arm raises it. Safe. -/
  | notModelled (mnemonic : String)
  /-- Raised by the step on an Instruction value that breaks its clause's requirement or whose `bytes` or `cycles`
  are not the table's (R89, decision D19, log entry 12). The decoder never produces one. Safe. -/
  | malformedInstruction
  /-- Raised by construction when PRG_LEN is neither 16384 nor 32768 (R43, decision D13, log entry 11). Safe. -/
  | unsupportedPrgLength (length : Nat)
  /-- Raised by a host action on a session that has faulted or has ended (R116, R122, R137, decision D16, log entry
  14). Safe. -/
  | sessionOver
  deriving DecidableEq, Repr

/-- The processor and the memory subsystem right after construction from the OPEN parameters, a PRG-ROM image and the
supported mapper (R23, R135). -/
def State.powerOn (par : PowerOn) (rom : Memory) (len : PrgLen) : State where
  pc       := par.resetPc
  sp       := Config.resetSp
  a        := par.resetA
  x        := par.resetX
  y        := par.resetY
  p        := par.resetP
  ram      := Memory.ofBytes par.ramInit.toList
  prgRom   := rom
  prgLen   := len
  mapperId := Config.supportedMapper
  out      := none

/-- The machine right after reset, that is right after construction (R135): SP = 0xFF as the spec says; every OPEN
parameter at the value of the spec's examples, 0 (DESIGN CHOICE, log entries 3 and 4, unsafe); a 16 KiB PRG-ROM image in
which nothing is listed (DESIGN CHOICE, log entry 5, unsafe); no cycle has returned. -/
def State.reset : State where
  pc       := 0x0000#16
  sp       := Config.resetSp
  a        := 0x00#8
  x        := 0x00#8
  y        := 0x00#8
  p        := 0x00#8
  ram      := []
  prgRom   := []
  prgLen   := .kib16
  mapperId := Config.supportedMapper
  out      := none

end Sys2Proof.Machine
end

