-- ==== Sys2Proof/Machine/Ops.lean ====
section
/-! DEFINITION. The named operations every instruction and the host share: the bus (region decode, read, write), the
registers, the stream binding, and the two ways a cycle completes (spec/20_memory.md R30 to R56,
spec/00_scope.md R8, spec/40_execution_cycle.md R83, R84, R88). -/

namespace Sys2Proof.Machine

/-- The four ranges of the bus decoding contract (R31). -/
inductive Region where
  | ram
  | peripheral
  | expansion
  | rom
  deriving DecidableEq, Repr

/-- Region decode, by the address alone (R31). -/
def regionOf (addr : Word) : Region :=
  if addr.toNat ≤ 0x1FFF then .ram
  else if addr.toNat ≤ 0x401F then .peripheral
  else if addr.toNat ≤ 0x7FFF then .expansion
  else .rom

/-- The RAM index: the address modulo 0x0800 (R32). -/
def ramIndex (addr : Word) : Nat := addr.toNat % 0x0800

/-- The ROM index of an address at or above 0x8000 (R33). -/
def romIndex (len : PrgLen) (addr : Word) : Nat :=
  let i := addr.toNat - 0x8000
  if len.bytes ≤ 16384 then i % len.bytes else i

/-- `RAM[i]`. -/
def State.ramByte (s : State) (i : Nat) : Byte := s.ram.get i

/-- `PRG_ROM[i]`. -/
def State.romByte (s : State) (i : Nat) : Byte := s.prgRom.get i

/-- `RAM[i] <- v`: that one byte and nothing else. -/
def State.putRam (s : State) (i : Nat) (v : Byte) : State := { s with ram := s.ram.set i v }

/-- `MemRead(addr, 1)` (R34, R35): a byte, or UnmappedAddress in the gap. It changes nothing (R39). -/
def State.memRead (s : State) (addr : Word) : Except Fault Byte :=
  match regionOf addr with
  | .ram => .ok (s.ramByte (ramIndex addr))
  | .peripheral => .error (.unmappedAddress addr)
  | .expansion => .error (.unmappedAddress addr)
  | .rom => .ok (s.romByte (romIndex s.prgLen addr))

/-- `MemWrite(addr, 1, v)` (R36, R37, R38). -/
def State.memWrite (s : State) (addr : Word) (v : Byte) : Except Fault State :=
  match regionOf addr with
  | .ram => .ok (s.putRam (ramIndex addr) v)
  | .peripheral => .error (.unmappedAddress addr)
  | .expansion => .error (.unmappedAddress addr)
  | .rom => .error (.readOnlyViolation addr)

/-- The 8-bit registers of `x[r]` (R8). -/
inductive Reg where
  | a
  | x
  | y
  | sp
  | p
  deriving DecidableEq, Repr

/-- `x[r]`. -/
def State.reg (s : State) : Reg → Byte
  | .a => s.a
  | .x => s.x
  | .y => s.y
  | .sp => s.sp
  | .p => s.p

/-- `x[r] <- v`. No register is hard-wired and none aliases another (R13, R26). -/
def State.setReg (s : State) (r : Reg) (v : Byte) : State :=
  match r with
  | .a => { s with a := v }
  | .x => { s with x := v }
  | .y => { s with y := v }
  | .sp => { s with sp := v }
  | .p => { s with p := v }

/-- The instruction stream of the machine: PRG_ROM indexed from 0 (R54, R62; decision D1, log entry 8). -/
def State.stream (s : State) : Stream := ⟨s.prgLen.bytes, s.prgRom⟩

/-- The cursor of the machine: `pc` as a natural number with no offset (R62; decision D1, log entry 8). -/
def State.cursor (s : State) : Nat := s.pc.toNat

/-- Fetch and Decode of the cycle (R80, R81): a pure read of PRG_ROM at `pc` (R70). -/
def State.fetch (s : State) : Except DecodeError Insn := decode opcodeTable s.stream s.cursor

/-- Advance-PC: `pc <- (pc + bytes) mod 65536` (R83; decision D3, log entry 10). -/
def State.advancePc (s : State) (bytes : Nat) : State := { s with pc := s.pc + BitVec.ofNat 16 bytes }

/-- The page-cross and branch-taken penalty of the return channel: 0 for every instruction in scope
(R84; decision D27, log entry 18). -/
def penalty (_ : Tag) : Nat := 0

/-- The count a step returns: base cycles plus penalty (R84). -/
def Row.count (r : Row) : Nat := r.cycles + penalty r.tag

/-- A step ends well: the program counter advances by the instruction's bytes, last, and `Ok(n)` is returned
(R82, R83, R84). -/
def State.completeOk (s : State) (r : Row) : State := { s.advancePc r.bytes with out := some (.ok (Row.count r)) }

/-- The Break trap, the only trap of the hardware (R121, R105): the cycle completes, `pc` advances, nothing is saved,
no mode changes, and `Break(n)` is returned. There is no return from it (R122). -/
def State.completeBreak (s : State) (r : Row) : State := { s.advancePc r.bytes with out := some (.brk (Row.count r)) }

/-- A decode error as the fault the cycle returns, with what it records (R114 a, R115). -/
def Fault.ofDecode : DecodeError → Fault
  | .unsupportedOpcode op cursor => .unsupportedOpcode (some ⟨op, cursor⟩)
  | .malformedOperand cursor => .malformedOperand cursor

/-- The spec's numbering of the errors, for tables only: no rule reads it (R110; decision D14, log entry 13). -/
def Fault.code : Fault → Nat
  | .unsupportedMapper _ => 1
  | .unmappedAddress _ => 2
  | .readOnlyViolation _ => 3
  | .unsupportedOpcode _ => 4
  | .malformedOperand _ => 5

/-- The stream bytes placed where the next cycle decodes: at `pc` where they fit below PRG_LEN; where they do not fit,
at 0 with `pc` set to 0, since a cursor at or past PRG_LEN can fetch nothing (R68; log entry 19). -/
def State.placeAtFetch (s : State) (bs : List Byte) : State :=
  if s.cursor + bs.length ≤ s.prgLen.bytes then
    { s with prgRom := Memory.setBytes s.prgLen.bytes s.prgRom s.cursor bs }
  else
    { s with pc := 0x0000#16, prgRom := Memory.setBytes s.prgLen.bytes s.prgRom 0 bs }

end Sys2Proof.Machine
end

