-- ==== Sys2Proof/Machine/Flags.lean ====
section
/-! DEFINITION. The status register's three flags, their places, and how an instruction writes them
(spec/10_state.md R14 to R17, R24; spec/40_execution_cycle.md R94). -/

namespace Sys2Proof.Machine

/-- The flags the source names (R14). -/
inductive Flag where
  | n
  | z
  | c
  deriving DecidableEq, Repr

/-- FLAG_N_BIT, FLAG_Z_BIT, FLAG_C_BIT (R14): the layout is the spec's decision D4 (log entry 6). -/
def Flag.bit : Flag → Nat
  | .n => 7
  | .z => 1
  | .c => 0

/-- A status byte with one bit replaced and every other bit kept (R8). -/
def putBit (p : Byte) (i : Nat) (b : Bool) : Byte :=
  if b then p ||| (1#8 <<< i) else p &&& ~~~(1#8 <<< i)

/-- `P.f`. -/
def State.flag (s : State) (f : Flag) : Bool := (s.reg .p).getLsbD f.bit

/-- `P.f <- b`: that one bit changes and no other (R8). -/
def State.setFlag (s : State) (f : Flag) (b : Bool) : State := s.setReg .p (putBit (s.reg .p) f.bit b)

/-- Negative is bit 7 of the 8-bit result (R15). -/
def negativeOf (result : Byte) : Bool := result.getLsbD 7

/-- Zero says whether the 8-bit result is 0 (R16). -/
def zeroOf (result : Byte) : Bool := result == 0#8

/-- Carry of the shift is bit 7 of the byte before it (R17). -/
def shiftCarryOf (old : Byte) : Bool := old.getLsbD 7

/-- The Zero and Negative flags from a result, both written every time (R15, R16). -/
def State.setZN (s : State) (result : Byte) : State :=
  (s.setFlag .z (zeroOf result)).setFlag .n (negativeOf result)

end Sys2Proof.Machine
end

