-- ==== Sys2Proof/Machine/Operands.lean ====
section
/-! DEFINITION. Operand resolution at execute time, for all five addressing modes (spec/30_encoding.md R72). -/

namespace Sys2Proof.Machine

/-- Zero-page effective address: `zext_16(short_value)` (R72). -/
def eaZp (short : Byte) : Word := short.setWidth 16

/-- Zero-page indexed by X: `zext_16((short_value + X) mod 256)`, wrapping within the zero page (R72). -/
def eaZpx (short x : Byte) : Word := (short + x).setWidth 16

/-- Absolute: the 16-bit operand itself (R72). -/
def eaAbs (long : Word) : Word := long

/-- What an operand field turns into: nothing, a value, or the effective address of a byte (R72). -/
inductive Operand where
  | absent
  | value (v : Byte)
  | address (ea : Word)
  deriving DecidableEq, Repr

/-- The operand of a mode from the Instruction's fields and the index register; none where the field the mode needs is
absent (R72, R89). -/
def resolve (mode : AddrMode) (short : Option Byte) (long : Option Word) (x : Byte) : Option Operand :=
  match mode with
  | .imp => some .absent
  | .imm => short.map Operand.value
  | .zp => short.map (fun b => Operand.address (eaZp b))
  | .zpx => short.map (fun b => Operand.address (eaZpx b x))
  | .abs => long.map (fun w => Operand.address (eaAbs w))

end Sys2Proof.Machine
end

