-- ==== Sys2Proof/Machine/Logical.lean ====
section
/-! DEFINITION. The logical family: AND immediate (spec/41_logical.md R95). -/

namespace Sys2Proof.Machine

/-- AND #imm (R95): `A <- A & imm`, Z and N from the result, C untouched, no bus access. -/
def execAndImm (imm : Byte) (s : State) : Host.Outcome State Fault Refusal :=
  let result := s.reg .a &&& imm
  .next (((s.setReg .a result).setZN result).completeOk rowAnd)

end Sys2Proof.Machine
end

