-- ==== Sys2Proof/Machine/Shift.lean ====
section
/-! DEFINITION. The shift family: ASL zero-page,X (spec/42_shift.md R100). -/

namespace Sys2Proof.Machine

/-- `(old << 1) mod 256`: the distance is always 1 and a 0 enters bit 0 (R91, R100). -/
def shiftLeftOne (old : Byte) : Byte := old <<< 1

/-- ASL zp,X (R100): one bus read and one bus write of the same byte, then C, Z and N. A bus error would propagate
unchanged with nothing updated (R87); no zero-page address raises one. -/
def execAslZpx (base : Byte) (s : State) : Host.Outcome State Fault Refusal :=
  let ea := eaZpx base (s.reg .x)
  match s.memRead ea with
  | .error e => .fault e
  | .ok old =>
    let result := shiftLeftOne old
    match s.memWrite ea result with
    | .error e => .fault e
    | .ok t => .next (((t.setFlag .c (shiftCarryOf old)).setZN result).completeOk rowAsl)

end Sys2Proof.Machine
end

