-- ==== Sys2Proof/Machine/System.lean ====
section
/-! DEFINITION. The system family: BRK (spec/43_system.md R105). -/

namespace Sys2Proof.Machine

/-- BRK (R105): no register, flag or memory effect; the Break trap is signalled and the machine may go on
(decision D11, log entry 15). -/
def execBrk (s : State) : Host.Outcome State Fault Refusal := .next (s.completeBreak rowBrk)

end Sys2Proof.Machine
end

