-- ==== Sys2Proof/Machine/Dispatch.lean ====
section
/-! DEFINITION. The step's dispatch on the instruction (spec/40_execution_cycle.md R82). -/

namespace Sys2Proof.Machine

def exec (i : Instr) (s : State) : Host.Outcome State Fault Refusal :=
  match i with
  | .brk => Sys2Proof.Machine.execBrk s
  | .aslZpx base => Sys2Proof.Machine.execAslZpx base s
  | .andImm imm => Sys2Proof.Machine.execAndImm imm s

end Sys2Proof.Machine
end

