-- ==== Sys2Proof/Machine/Engine.lean ====
section
/-! DEFINITION. The engine: the step on an Instruction value, and the cycle that decodes at `pc` and steps
(spec/40_execution_cycle.md R80 to R89). -/

namespace Sys2Proof.Machine

/-- The clause of a tag that has one: the instruction is executed; an Instruction value that breaks the clause's
requirement or disagrees with the table has no meaning (R89, decision D19, log entry 12). -/
def runClause (insn : Insn) (s : State) : Host.Outcome State Fault Refusal :=
  match insn.toInstr with
  | some i => exec i s
  | none => .refused .malformedInstruction

/-- `step(insn)` (R82): dispatch on the tag; a tag with no clause raises UnsupportedOpcode with nothing recorded
(R85, R114 b). -/
def stepInsn (insn : Insn) (s : State) : Host.Outcome State Fault Refusal :=
  match insn.opCode with
  | .brk => runClause insn s
  | .aslZeroPageX => runClause insn s
  | .andImmediate => runClause insn s
  | .other _ => .fault (.unsupportedOpcode none)

/-- `Cycle()` (R81): decode at `pc`, then the step; a decode error ends the cycle with no state change (R118). -/
def cycle (s : State) : Host.Outcome State Fault Refusal :=
  match s.fetch with
  | .error e => .fault (Fault.ofDecode e)
  | .ok insn => stepInsn insn s

end Sys2Proof.Machine
end

