-- ==== Sys2Proof/Machine/Step.lean ====
section
/-! DEFINITION. One step of the machine is one cycle of the engine (spec/40_execution_cycle.md R80, R81, conflict C3);
and a state whose next cycle runs a given table word. -/

namespace Sys2Proof.Machine

/-- One step: one cycle of the engine. -/
def step (s : State) : Host.Outcome State Fault Refusal := cycle s

/-- The state with the instruction of a table word placed in PRG_ROM where the next cycle decodes; it stands for the
host's load of a PRG-ROM buffer (log entries 5 and 19). -/
def State.withFetchWord (s : State) (nbits w : Nat) : State := s.placeAtFetch (tableBytes nbits w)

end Sys2Proof.Machine
end

