-- ==== Sys2Proof/Machine/Construct.lean ====
section
/-! DEFINITION. Construction, the only reset of the block (spec/20_memory.md R41 to R43,
spec/70_reset_and_hazards.md R135 to R137). -/

namespace Sys2Proof.Machine

/-- The admitted PRG-ROM lengths (R43). -/
def prgLenOf (n : Nat) : Option PrgLen :=
  if n = 16384 then some .kib16 else if n = 32768 then some .kib32 else none

/-- Construction from a mapper identifier, a PRG-ROM buffer and the OPEN reset parameters (R135). The mapper check is
the only check and does not look at the buffer (R42, R119); a length the spec does not admit is refused (R43, decision
D13, log entry 11). -/
def construct (mapperId : Nat) (rom : List Byte) (par : PowerOn) : Host.Outcome State Fault Refusal :=
  if mapperId = Config.supportedMapper then
    match prgLenOf rom.length with
    | some len => .next (State.powerOn par (Memory.ofBytes rom) len)
    | none => .refused (.unsupportedPrgLength rom.length)
  else .fault (.unsupportedMapper mapperId)

end Sys2Proof.Machine
end

