-- ==== Sys2Proof/Machine/Session.lean ====
section
/-! DEFINITION. The host's side: a session around the machine with its fault status and its running total, and what the
host may do between cycles (spec/70_reset_and_hazards.md R141, spec/60_exceptions.md R116, R118, R124). -/

namespace Sys2Proof.Machine

/-- Whether a further operation is defined, and the fault status, which is never cleared (R116; decision D16). -/
inductive Status where
  /-- No fault recorded; every action is defined. -/
  | live
  /-- An error ended the run; only ending the session is left. -/
  | faulted (f : Fault)
  /-- Ended by the host, with the fault recorded before the end, if any. -/
  | ended (recorded : Option Fault)
  deriving DecidableEq, Repr

/-- The fault a session has recorded (R116). -/
def Status.fault : Status → Option Fault
  | .live => none
  | .faulted f => some f
  | .ended recorded => recorded

/-- A session: the machine, its status, and TOTAL_CYCLES, the host's own unbounded count (R124; decision D18). Neither
of the last two is architectural state (R22). -/
structure Session where
  machine     : State
  status      : Status
  totalCycles : Nat
  deriving DecidableEq, Repr

/-- The host's actions at an instruction boundary (R141; decision D20). There is none that changes PRG_ROM, the table
or the mapper, or that acts during a cycle (U24, log entry 21). -/
inductive Action where
  | cycle
  | decode (cursor : Nat)
  | stepInsn (insn : Insn)
  | busRead (address : Word)
  | busWrite (address : Word) (v : Byte)
  | readReg (r : Reg)
  | writeReg (r : Reg) (v : Byte)
  | readPc
  | writePc (v : Word)
  | readFlag (f : Flag)
  | writeFlag (f : Flag) (b : Bool)
  | endSession
  deriving DecidableEq, Repr

/-- What the host gets back (R141). -/
inductive Reply where
  | returned (r : Returned)
  | instruction (i : Insn)
  | byte (v : Byte)
  | word (v : Word)
  | bit (b : Bool)
  | done
  | error (f : Fault)
  deriving DecidableEq, Repr

/-- The count in a return value. -/
def Returned.cycles : Returned → Nat
  | .ok n => n
  | .brk n => n

/-- A session whose operation raised an error: the machine is exactly as before, the status is terminal, the total does
not change (R116, R118, R124). -/
def Session.fail (se : Session) (f : Fault) : Session × Reply := ({ se with status := .faulted f }, .error f)

/-- A session after a completed step: the returned count is added to the total (R124). -/
def Session.complete (se : Session) (t : State) : Session × Reply :=
  match t.out with
  | some r => ({ se with machine := t, totalCycles := se.totalCycles + r.cycles }, .returned r)
  | none => ({ se with machine := t }, .done)

/-- The outcome of a step as the session's (R88). -/
def Session.ofOutcome (se : Session) (o : Host.Outcome State Fault Refusal) : Except Refusal (Session × Reply) :=
  match o with
  | .next t => .ok (se.complete t)
  | .fault f => .ok (se.fail f)
  | .refused r => .error r

/-- The host ends the session: what fault it recorded stays recorded (R116, R137). -/
def Session.close (se : Session) : Session × Reply := ({ se with status := .ended se.status.fault }, .done)

/-- One host action on a live session (R141). The table gives one reply, the value, for a register's read and write
together. DESIGN CHOICE (log entry 16), safe: a read of a register, `pc` or a flag answers the value, a write answers
`done`, that is nothing, as a bus write does. -/
def Session.actLive (se : Session) (act : Action) : Except Refusal (Session × Reply) :=
  match act with
  | .cycle => se.ofOutcome (step se.machine)
  | .decode c =>
    match decode opcodeTable se.machine.stream c with
    | .ok i => .ok (se, .instruction i)
    | .error e => .ok (se.fail (Fault.ofDecode e))
  | .stepInsn i => se.ofOutcome (stepInsn i se.machine)
  | .busRead addr =>
    match se.machine.memRead addr with
    | .ok v => .ok (se, .byte v)
    | .error f => .ok (se.fail f)
  | .busWrite addr v =>
    match se.machine.memWrite addr v with
    | .ok t => .ok ({ se with machine := t }, .done)
    | .error f => .ok (se.fail f)
  | .readReg r => .ok (se, .byte (se.machine.reg r))
  | .writeReg r v => .ok ({ se with machine := se.machine.setReg r v }, .done)
  | .readPc => .ok (se, .word se.machine.pc)
  | .writePc v => .ok ({ se with machine := { se.machine with pc := v } }, .done)
  | .readFlag f => .ok (se, .bit (se.machine.flag f))
  | .writeFlag f b => .ok ({ se with machine := se.machine.setFlag f b }, .done)
  | .endSession => .ok se.close

/-- One host action: on a faulted session only ending it is left, on an ended one nothing (R116, R122, R137; log entry
14). -/
def Session.act (se : Session) (act : Action) : Except Refusal (Session × Reply) :=
  match se.status with
  | .live => se.actLive act
  | .faulted _ => if act = .endSession then .ok se.close else .error .sessionOver
  | .ended _ => .error .sessionOver

/-- Host actions one after another, stopping at the first refusal (R141). -/
def Session.actAll : List Action → Session → Except Refusal Session
  | [], se => .ok se
  | act :: rest, se =>
    match se.act act with
    | .ok (se', _) => Session.actAll rest se'
    | .error r => .error r

/-- What one host action makes of SP: only a host write of SP changes it (R12, R141, R142). -/
def Action.spAfter (act : Action) (sp : Byte) : Byte :=
  match act with
  | .writeReg .sp v => v
  | _ => sp

/-- What a list of host actions makes of SP: the last value the host wrote there, else as before (R142). -/
def Action.spAfterAll : List Action → Byte → Byte
  | [], sp => sp
  | act :: rest, sp => Action.spAfterAll rest (act.spAfter sp)

/-- A new session on a constructed machine (R135, R141). -/
def Session.start (s : State) : Session := ⟨s, .live, 0⟩

/-- Construct: a live session on a new block, or construction's error or refusal with nothing constructed
(R42, R135). -/
def Session.launch (mapperId : Nat) (rom : List Byte) (par : PowerOn) : Host.Outcome Session Fault Refusal :=
  match construct mapperId rom par with
  | .next s => .next (Session.start s)
  | .fault f => .fault f
  | .refused r => .refused r

end Sys2Proof.Machine
end

