-- ==== Sys2Proof/Safety.lean ====
section
/-! DEFINITION. The invariant of the state, and the end of a run, in the terms the claims use
(spec/10_state.md R18 to R20, spec/70_reset_and_hazards.md R140, R142). -/

namespace Sys2Proof.Machine

/-- Both memories are canonical and lie within their sizes (R18, R19, R43), and the mapper is the one that constructs
(R20). -/
structure State.Inv (s : State) : Prop where
  ramWf    : s.ram.wf = true
  ramBelow : Memory.below Config.ramSize s.ram = true
  romWf    : s.prgRom.wf = true
  romBelow : Memory.below s.prgLen.bytes s.prgRom = true
  mapper   : s.mapperId = Config.supportedMapper

/-- The launch premises a claim about a program should name (spec/70_reset_and_hazards.md R142): no fault recorded, the
mapper 0 (PRG_LEN is 16384 or 32768 by its type), the program's bytes in PRG_ROM from `pc` on, and SP = 0xFF unless the
host changed it: `setUp` lists the host's actions between construction and the launch, and SP is what they make of 0xFF.
What a claim needs of the other registers, the flags and RAM it names itself, and any host action between its cycles. -/
def Session.launched (se : Session) (setUp : List Action) (program : List Byte) : Bool :=
  (se.status == .live) && (se.machine.mapperId == Config.supportedMapper) &&
    se.machine.stream.holds se.machine.cursor program && (se.machine.sp == Action.spAfterAll setUp Config.resetSp)

/-- Instructions executed one after another (R49, R143), stopping at the first fault or refusal. -/
def execSeq : List Instr → State → Host.Outcome State Fault Refusal
  | [], s => .next s
  | i :: rest, s =>
    match exec i s with
    | .next t => execSeq rest t
    | .fault f => .fault f
    | .refused r => .refused r

/-- How a run stands after a number of cycles (R140; decision D12, log entry 22). -/
inductive RunEnd where
  /-- A Break ended it: completed, with the state after the BRK. -/
  | completed (final : State)
  /-- A fault ended it: failed, with the state before the faulting cycle. -/
  | failed (before : State) (f : Fault)
  /-- A refusal ended it. -/
  | refused (r : Refusal)
  /-- No end yet. -/
  | running (s : State)
  deriving DecidableEq, Repr

/-- At most `k` cycles, ending at the first Break or Fault (R140). -/
def runToEnd : Nat → State → RunEnd
  | 0, s => .running s
  | k + 1, s =>
    match step s with
    | .fault f => .failed s f
    | .refused r => .refused r
    | .next t =>
      match t.out with
      | some (.brk _) => .completed t
      | some (.ok _) => runToEnd k t
      | none => runToEnd k t

/-- A run that has ended, well or not. -/
def RunEnd.ended : RunEnd → Bool
  | .running _ => false
  | .completed _ => true
  | .failed _ _ => true
  | .refused _ => true

end Sys2Proof.Machine
end

