-- ==== Sys2Proof/Certificates/Slice0/Obligations.lean ====
section
/-! DEFINITION. The statements for the provers, from the spec's numbered rules. A title or docstring says where a
statement rests on a decision of the spec (D<n>, an inference or a choice of the spec's own) or on a log entry. -/

open Sys2Proof Sys2Proof.Machine

/-! ## The bus -/

/-- R34, R35: what a bus read answers, for every address; a failed read returns no byte and there is no state it could
change. -/
def Obligations.BusReadContract : Prop :=
  ∀ (s : State) (addr : Word),
    s.memRead addr =
      if addr.toNat ≤ 0x1FFF then .ok (s.ram.get (addr.toNat % 0x0800))
      else if 0x8000 ≤ addr.toNat then
        .ok (s.prgRom.get (if s.prgLen.bytes ≤ 16384 then (addr.toNat - 0x8000) % s.prgLen.bytes
          else addr.toNat - 0x8000))
      else .error (.unmappedAddress addr)

/-- R36, R37, R38: a RAM write stores one byte, visible through all four mirror addresses, and changes nothing else; a
write of the ROM window or of the gap raises its error whatever the value, and no state results. -/
def Obligations.BusWriteContract : Prop :=
  ∀ (s : State) (addr : Word) (v : Byte),
    (addr.toNat ≤ 0x1FFF →
      ∃ t, s.memWrite addr v = .ok t ∧ t = { s with ram := t.ram } ∧
        (∀ i, t.ramByte i = if i = addr.toNat % 0x0800 then v else s.ramByte i) ∧
        (∀ j : Fin 4, t.memRead (BitVec.ofNat 16 (addr.toNat % 0x0800 + 0x0800 * j.val)) = .ok v) ∧
        (∀ other : Word, ¬(other.toNat ≤ 0x1FFF ∧ other.toNat % 0x0800 = addr.toNat % 0x0800) →
          t.memRead other = s.memRead other)) ∧
    (0x8000 ≤ addr.toNat → s.memWrite addr v = .error (.readOnlyViolation addr)) ∧
    (0x2000 ≤ addr.toNat → addr.toNat ≤ 0x7FFF → s.memWrite addr v = .error (.unmappedAddress addr))

/-- R32: the effective RAM index is the address modulo 0x0800, equivalently its low 11 bits, and the four windows are
one byte: they read alike, and a write through one is read through every other. -/
def Obligations.RamMirrorWindows : Prop :=
  ∀ (s : State) (k : Fin 2048) (i j : Fin 4) (v : Byte),
    ramIndex (BitVec.ofNat 16 (k.val + 0x0800 * i.val)) = k.val ∧
    ramIndex (BitVec.ofNat 16 (k.val + 0x0800 * i.val)) =
      ((BitVec.ofNat 16 (k.val + 0x0800 * i.val)).extractLsb' 0 11).toNat ∧
    s.memRead (BitVec.ofNat 16 (k.val + 0x0800 * i.val)) = .ok (s.ramByte k.val) ∧
    ∃ t, s.memWrite (BitVec.ofNat 16 (k.val + 0x0800 * i.val)) v = .ok t ∧ t.ramByte k.val = v ∧
      t.memRead (BitVec.ofNat 16 (k.val + 0x0800 * j.val)) = .ok v

/-- The ROM window (20_memory.md sections 2 and 3, its mirror properties): a 16 KiB image is seen twice, a 32 KiB image
once, and the index never leaves the image. -/
def Obligations.RomWindowReads : Prop :=
  ∀ (s : State),
    (s.prgLen = .kib16 → ∀ k : Fin 16384,
      s.memRead (BitVec.ofNat 16 (0x8000 + k.val)) = .ok (s.romByte k.val) ∧
      s.memRead (BitVec.ofNat 16 (0xC000 + k.val)) = .ok (s.romByte k.val)) ∧
    (s.prgLen = .kib32 → ∀ k : Fin 32768,
      s.memRead (BitVec.ofNat 16 (0x8000 + k.val)) = .ok (s.romByte k.val)) ∧
    (∀ addr : Word, romIndex s.prgLen addr < s.prgLen.bytes)

/-- The address map (20_memory.md section 2): four disjoint ranges that cover the address space, and their address
bits. -/
def Obligations.RegionDecodeTable : Prop :=
  ∀ addr : Word,
    (regionOf addr = .ram ↔ addr.toNat ≤ 0x1FFF) ∧
    (regionOf addr = .peripheral ↔ 0x2000 ≤ addr.toNat ∧ addr.toNat ≤ 0x401F) ∧
    (regionOf addr = .expansion ↔ 0x4020 ≤ addr.toNat ∧ addr.toNat ≤ 0x7FFF) ∧
    (regionOf addr = .rom ↔ 0x8000 ≤ addr.toNat) ∧
    (regionOf addr = .ram ↔ addr.extractLsb' 13 3 = 0#3) ∧
    (regionOf addr = .rom ↔ addr.getLsbD 15 = true)

/-- No address of the zero page raises a bus error (30_encoding.md section 6), in either zero-page mode. -/
def Obligations.ZeroPageNeverFails : Prop :=
  ∀ (s : State) (short x v : Byte),
    (∃ b, s.memRead (eaZpx short x) = .ok b) ∧ (∃ t, s.memWrite (eaZpx short x) v = .ok t) ∧
    (∃ b, s.memRead (eaZp short) = .ok b) ∧ (∃ t, s.memWrite (eaZp short) v = .ok t)

/-- The stream cannot be changed (20_memory.md section 8, 70_reset_and_hazards.md section 4): neither a bus write nor a
cycle changes what any cursor decodes to. -/
def Obligations.StoresNeverReachTheStream : Prop :=
  (∀ (s t : State) (addr : Word) (v : Byte), s.memWrite addr v = .ok t →
    ∀ c, decode opcodeTable t.stream c = decode opcodeTable s.stream c) ∧
  (∀ s t : State, step s = .next t → ∀ c, decode opcodeTable t.stream c = decode opcodeTable s.stream c)

/-! ## The instructions -/

/-- AND #imm completes in every state (41_logical.md). The count 2 is the spec's decision D9 (log entry 7), the wrap of
`pc` its decision D3 (log entry 10). -/
def Obligations.AndImmediateResult : Prop :=
  ∀ (s : State) (imm : Byte),
    ∃ t, exec (.andImm imm) s = .next t ∧ t.a = s.a &&& imm ∧
      t.flag .z = (s.a &&& imm == 0#8) ∧ t.flag .n = (s.a &&& imm).getLsbD 7 ∧
      t.pc = s.pc + 2#16 ∧ t.out = some (.ok 2)

/-- What AND #imm leaves unchanged (41_logical.md; 10_state.md section 3, the access table): every register but A, every
status bit but Z and N, and every byte of memory. Bits 2 to 6 of P as the unnamed ones are the spec's decisions D4 and
D5 (log entry 6). -/
def Obligations.AndImmediateFrame : Prop :=
  ∀ (s t : State) (imm : Byte), exec (.andImm imm) s = .next t →
    t.sp = s.sp ∧ t.x = s.x ∧ t.y = s.y ∧ t.flag .c = s.flag .c ∧
    (∀ j, 2 ≤ j → j ≤ 6 → t.p.getLsbD j = s.p.getLsbD j) ∧
    (∀ addr, t.memRead addr = s.memRead addr) ∧
    t.ram = s.ram ∧ t.prgRom = s.prgRom ∧ t.prgLen = s.prgLen ∧ t.mapperId = s.mapperId

/-- ASL zp,X completes in every state (42_shift.md): the byte at the wrapped index sum is shifted left by one. The count
6 is the spec's decision D9 (log entry 7), the wrap of `pc` its decision D3 (log entry 10). -/
def Obligations.AslZeroPageXResult : Prop :=
  ∀ (s : State) (base : Byte),
    ∃ t old, exec (.aslZpx base) s = .next t ∧
      (eaZpx base s.x).toNat = (base.toNat + s.x.toNat) % 256 ∧
      s.memRead (eaZpx base s.x) = .ok old ∧
      t.memRead (eaZpx base s.x) = .ok (BitVec.ofNat 8 (2 * old.toNat)) ∧
      t.flag .c = old.getLsbD 7 ∧ t.flag .z = (BitVec.ofNat 8 (2 * old.toNat) == 0#8) ∧
      t.flag .n = old.getLsbD 6 ∧ t.pc = s.pc + 2#16 ∧ t.out = some (.ok 6)

/-- What ASL zp,X leaves unchanged (42_shift.md; 10_state.md section 3): A, X, Y, SP, the status bits but C, Z and N, and
every byte of memory but the one at the effective address, seen through its mirror addresses. Bits 2 to 6 of P as the
unnamed ones are the spec's decisions D4 and D5 (log entry 6). -/
def Obligations.AslZeroPageXFrame : Prop :=
  ∀ (s t : State) (base : Byte), exec (.aslZpx base) s = .next t →
    t.a = s.a ∧ t.sp = s.sp ∧ t.x = s.x ∧ t.y = s.y ∧
    (∀ j, 2 ≤ j → j ≤ 6 → t.p.getLsbD j = s.p.getLsbD j) ∧
    (∀ addr : Word, ¬(addr.toNat ≤ 0x1FFF ∧ addr.toNat % 0x0800 = (eaZpx base s.x).toNat) →
      t.memRead addr = s.memRead addr) ∧
    t.prgRom = s.prgRom ∧ t.prgLen = s.prgLen ∧ t.mapperId = s.mapperId

/-- BRK completes in every state and changes nothing but `pc` and the returned signal (43_system.md; 60_exceptions.md
section 5). That `pc` advances by 1 and the state is valid is the spec's decision D11 (log entry 15), BRK's length 1
and the count 7 its decisions D10 and D9 (log entry 7), the wrap of `pc` its decision D3 (log entry 10). -/
def Obligations.BrkSignalsOnly : Prop :=
  ∀ s : State, exec .brk s = .next { s with pc := s.pc + 1#16, out := some (.brk 7) }

/-- R15: Negative is bit 7 of the result, written on every execution of AND and ASL. -/
def Obligations.NegativeIsResultBit7 : Prop :=
  ∀ (s : State) (imm base : Byte),
    (∃ t, exec (.andImm imm) s = .next t ∧ t.a = s.a &&& imm ∧ t.flag .n = t.a.getLsbD 7) ∧
    (∃ t result, exec (.aslZpx base) s = .next t ∧ t.memRead (eaZpx base s.x) = .ok result ∧
      t.flag .n = result.getLsbD 7)

/-- R16: Zero says whether the 8-bit result is 0, written on every execution of AND and ASL; for ASL the result is the
shifted byte without the bit shifted out, so 0x80 gives 0x00 and Z = 1. -/
def Obligations.ZeroIsResultZero : Prop :=
  ∀ (s : State) (imm base : Byte),
    (∃ t, exec (.andImm imm) s = .next t ∧ t.a = s.a &&& imm ∧ t.flag .z = (t.a == 0#8)) ∧
    (∃ t old result, exec (.aslZpx base) s = .next t ∧ s.memRead (eaZpx base s.x) = .ok old ∧
      t.memRead (eaZpx base s.x) = .ok result ∧ result = old <<< 1 ∧ t.flag .z = (result == 0#8) ∧
      (old = 0x80#8 → result = 0x00#8 ∧ t.flag .z = true))

/-- R17: ASL writes Carry from bit 7 of the byte before the shift; AND does not touch it; no instruction reads it (a 0
enters bit 0): with Carry set to any value before, BRK and AND give the same state with that Carry, ASL the same state. -/
def Obligations.CarryIsOldBit7 : Prop :=
  (∀ (s : State) (base : Byte), ∃ t old result, exec (.aslZpx base) s = .next t ∧
    s.memRead (eaZpx base s.x) = .ok old ∧ t.memRead (eaZpx base s.x) = .ok result ∧
    t.flag .c = old.getLsbD 7 ∧ result.getLsbD 0 = false) ∧
  (∀ (s : State) (imm : Byte), ∃ t, exec (.andImm imm) s = .next t ∧ t.flag .c = s.flag .c) ∧
  (∀ (s : State) (b : Bool),
    (∃ t, exec .brk s = .next t ∧ exec .brk (s.setFlag .c b) = .next (t.setFlag .c b)) ∧
    (∀ imm, ∃ t, exec (.andImm imm) s = .next t ∧ exec (.andImm imm) (s.setFlag .c b) = .next (t.setFlag .c b)) ∧
    (∀ base, exec (.aslZpx base) (s.setFlag .c b) = exec (.aslZpx base) s))

/-- R94: an instruction writes exactly the flags its rule lists, from its 8-bit result, and leaves every other bit of P
as it was: AND writes Z and N, ASL writes C, Z and N, BRK none. -/
def Obligations.FlagWritesAreExact : Prop :=
  ∀ (s : State),
    (∀ imm, ∃ t, exec (.andImm imm) s = .next t ∧
      t.flag .z = (t.a == 0#8) ∧ t.flag .n = t.a.getLsbD 7 ∧
      ∀ j, j < 8 → j ≠ Flag.bit .z → j ≠ Flag.bit .n → t.p.getLsbD j = s.p.getLsbD j) ∧
    (∀ base, ∃ t old result, exec (.aslZpx base) s = .next t ∧
      s.memRead (eaZpx base s.x) = .ok old ∧ t.memRead (eaZpx base s.x) = .ok result ∧
      t.flag .c = old.getLsbD 7 ∧ t.flag .z = (result == 0#8) ∧ t.flag .n = result.getLsbD 7 ∧
      ∀ j, j < 8 → j ≠ Flag.bit .z → j ≠ Flag.bit .n → j ≠ Flag.bit .c → t.p.getLsbD j = s.p.getLsbD j) ∧
    (∃ t, exec .brk s = .next t ∧ t.p = s.p)

/-- R13: A, X and Y are plain registers: none is hard-wired and none aliases another; AND reads and writes A; ASL reads
X and never writes it; no instruction reads or writes Y. -/
def Obligations.GeneralRegistersArePlain : Prop :=
  (∀ (s : State) (r q : Reg) (v : Byte), (s.setReg r v).reg q = if q = r then v else s.reg q) ∧
  (∀ (s : State) (imm : Byte), ∃ t, exec (.andImm imm) s = .next t ∧ t.a = s.a &&& imm) ∧
  (∀ (s : State) (base : Byte), ∃ t old, exec (.aslZpx base) s = .next t ∧ t.x = s.x ∧
    s.memRead (eaZpx base s.x) = .ok old ∧ t.memRead (eaZpx base s.x) = .ok (old <<< 1)) ∧
  (∀ (s : State) (i : Instr) (v : Byte), ∃ t, exec i s = .next t ∧ t.y = s.y ∧
    exec i (s.setReg .y v) = .next (t.setReg .y v))

/-- SP is an inert cell (10_state.md section 3; the spec's decision D17, log entry 6): every instruction completes with
SP as it was, and does the same whatever SP holds. -/
def Obligations.StackPointerIsInert : Prop :=
  ∀ (s : State) (i : Instr) (v : Byte), ∃ t, exec i s = .next t ∧ t.sp = s.sp ∧
    exec i (s.setReg .sp v) = .next (t.setReg .sp v)

/-- After AND or ASL, Negative and Zero are not both 1 (95_test_vectors.md part 4, property 5). -/
def Obligations.NeverBothZeroAndNegative : Prop :=
  ∀ (s : State) (imm base : Byte),
    (∃ t, exec (.andImm imm) s = .next t ∧ (t.flag .n && t.flag .z) = false) ∧
    (∃ t, exec (.aslZpx base) s = .next t ∧ (t.flag .n && t.flag .z) = false)

/-- The AND is idempotent (41_logical.md, corner cases): executed twice it gives the A and the flags of once,
with `pc` two further (its wrap is the spec's decision D3, log entry 10). -/
def Obligations.AndTwiceIsAndOnce : Prop :=
  ∀ (s : State) (imm : Byte), ∃ t u,
    exec (.andImm imm) s = .next t ∧ execSeq [.andImm imm, .andImm imm] s = .next u ∧
    u.a = t.a ∧ u.p = t.p ∧ u.pc = t.pc + 2#16

/-- Repeated shifts of one byte (42_shift.md, corner cases): `n` executions multiply it by 2^n modulo 256, so eight
leave 0x00 with Z = 1 and N = 0. -/
def Obligations.EightShiftsClearTheByte : Prop :=
  ∀ (s : State) (base old : Byte), s.memRead (eaZpx base s.x) = .ok old →
    (∀ n, ∃ t, execSeq (List.replicate n (.aslZpx base)) s = .next t ∧ t.x = s.x ∧
      t.memRead (eaZpx base s.x) = .ok (old <<< n)) ∧
    (∃ t, execSeq (List.replicate 8 (.aslZpx base)) s = .next t ∧
      t.memRead (eaZpx base s.x) = .ok 0x00#8 ∧ t.flag .z = true ∧ t.flag .n = false)

/-- Operand resolution of the five modes (30_encoding.md section 6), and none where the field a mode needs is absent: on
that the section is silent, and the clauses follow the refusal of an ill-formed Instruction (40_execution_cycle.md
section 2, R89; the spec's decision D19, log entry 12). No arm of `exec` calls `resolve`: it states the mechanism as a
table, and ASL takes its address from `eaZpx`, which `resolve` shares. -/
def Obligations.OperandResolutionTable : Prop :=
  ∀ (short x : Byte) (long : Word),
    resolve .imp none none x = some .absent ∧
    resolve .imm (some short) none x = some (.value short) ∧
    resolve .zp (some short) none x = some (.address (BitVec.ofNat 16 short.toNat)) ∧
    resolve .zpx (some short) none x = some (.address (BitVec.ofNat 16 ((short.toNat + x.toNat) % 256))) ∧
    resolve .abs none (some long) x = some (.address long) ∧
    resolve .imm none none x = none ∧ resolve .zp none none x = none ∧ resolve .zpx none none x = none ∧
    resolve .abs none none x = none

/-! ## The decoder -/

/-- R63: in a mode with an 8-bit operand, for any table, the operand is the byte at cursor + 1, unchanged, in the short
field, and the long field is absent. -/
def Obligations.ShortOperandIsNextByte : Prop :=
  ∀ (tab : OpcodeTable) (s : Sys2Proof.Stream) (c : Nat) (op : Byte) (r : Row),
    s.read c = some op → OpcodeTable.row tab op = some r →
    (r.mode = .imm ∨ r.mode = .zp ∨ r.mode = .zpx) → r.bytes = 2 → c + 2 ≤ s.len →
    ∃ n b, decode tab s c = .ok n ∧ s.read (c + 1) = some b ∧ n.shortValue = some b ∧ n.longValue = none

/-- R64: in absolute mode, for any table, the operand is assembled little-endian from the bytes at cursor + 1 and
cursor + 2 in the long field, and the short field is absent. -/
def Obligations.LongOperandIsLittleEndian : Prop :=
  ∀ (tab : OpcodeTable) (s : Sys2Proof.Stream) (c : Nat) (op : Byte) (r : Row),
    s.read c = some op → OpcodeTable.row tab op = some r → r.mode = .abs → r.bytes = 3 → c + 3 ≤ s.len →
    ∃ n lo hi w, decode tab s c = .ok n ∧ s.read (c + 1) = some lo ∧ s.read (c + 2) = some hi ∧
      n.longValue = some w ∧ n.shortValue = none ∧ w = hi ++ lo ∧ w.toNat = lo.toNat + 256 * hi.toNat

/-- Words written out from the encodings (30_encoding.md sections 2 and 4; opcode bytes, cycle counts and BRK's length
are the spec's decisions D8, D9 and D10, log entry 7) decode to their instructions. An unlisted byte and an operand past
the end raise their errors (30_encoding.md section 5); that a cursor at the end gives MalformedOperand is decision D2 (log
entry 9), that the error carries the cursor decision D23 (log entry 13). -/
def Obligations.WrittenOutWordsDecode : Prop :=
  decode opcodeTable (Stream.ofBytes [0x29#8, 0x81#8]) 0 = .ok ⟨.andImmediate, some 0x81#8, none, 2, 2⟩ ∧
  decode opcodeTable (Stream.ofBytes [0x16#8, 0x02#8]) 0 = .ok ⟨.aslZeroPageX, some 0x02#8, none, 2, 6⟩ ∧
  decode opcodeTable (Stream.ofBytes [0x00#8]) 0 = .ok ⟨.brk, none, none, 1, 7⟩ ∧
  decode opcodeTable (Stream.ofBytes [0xEA#8]) 0 = .error (.unsupportedOpcode 0xEA#8 0) ∧
  decode opcodeTable (Stream.ofBytes [0x00#8, 0x29#8]) 1 = .error (.malformedOperand 1) ∧
  decode opcodeTable (Stream.ofBytes [0x00#8]) 1 = .error (.malformedOperand 1)

/-- Decode and encode agree, for every instruction at every operand value, wherever its bytes stand in a stream
(30_encoding.md sections 2 to 5; opcode bytes, counts and BRK's length are the spec's decisions D8, D9 and D10, log
entry 7). -/
def Obligations.DecodeOfEncode : Prop :=
  ∀ (i : Instr) (before after : List Byte),
    decode opcodeTable (Stream.ofBytes (before ++ encode i ++ after)) before.length = .ok i.toInsn ∧
    i.toInsn.toInstr = some i

/-- The other direction (30_encoding.md section 5): what the decoder accepts is some instruction, and the bytes at the
cursor are that instruction's encoding (opcode bytes, counts and BRK's length: the spec's decisions D8, D9 and D10, log
entry 7). -/
def Obligations.AcceptedBytesAreAnEncoding : Prop :=
  ∀ (s : Sys2Proof.Stream) (c : Nat) (n : Insn), decode opcodeTable s c = .ok n →
    ∃ i : Instr, n = i.toInsn ∧ s.holds c (encode i) = true

/-- UnsupportedOpcode exactly for a readable byte without a row, recording the byte and the cursor (30_encoding.md
section 5; the three listed bytes are the spec's decision D8, log entry 7). -/
def Obligations.UnsupportedOpcodeExactly : Prop :=
  ∀ (s : Sys2Proof.Stream) (c c' : Nat) (op : Byte),
    decode opcodeTable s c = .error (.unsupportedOpcode op c') ↔
      c' = c ∧ s.read c = some op ∧ op ≠ 0x00#8 ∧ op ≠ 0x16#8 ∧ op ≠ 0x29#8

/-- MalformedOperand exactly where a listed opcode's bytes run past the end of the stream, or the cursor is there already
(30_encoding.md section 5; the second case is the spec's decision D2, log entry 9; that the error carries the cursor is
its decision D23, log entry 13), for any table. -/
def Obligations.MalformedOperandExactly : Prop :=
  ∀ (tab : OpcodeTable) (s : Sys2Proof.Stream) (c c' : Nat),
    decode tab s c = .error (.malformedOperand c') ↔
      c' = c ∧ (s.len ≤ c ∨
        ∃ op r, s.read c = some op ∧ OpcodeTable.row tab op = some r ∧ s.len < c + r.bytes)

/-- The decoder never sees a register, RAM or the bus (30_encoding.md section 5): states with the same PRG_ROM decode
alike at every cursor. -/
def Obligations.DecodeReadsOnlyTheStream : Prop :=
  ∀ (s t : State), s.prgRom = t.prgRom → s.prgLen = t.prgLen →
    ∀ tab c, decode tab s.stream c = decode tab t.stream c

/-! ## The engine -/

/-- One step is decode at `pc` on PRG_ROM, then the step on the Instruction; a decode error ends it before the step begins
(40_execution_cycle.md section 1). That the stream is PRG_ROM and the cursor `pc` with no offset (30_encoding.md
section 1) is the spec's decision D1 (log entry 8). -/
def Obligations.CycleIsDecodeThenStep : Prop :=
  ∀ s : State,
    (∀ n, decode opcodeTable ⟨s.prgLen.bytes, s.prgRom⟩ s.pc.toNat = .ok n → step s = stepInsn n s) ∧
    (∀ e, decode opcodeTable ⟨s.prgLen.bytes, s.prgRom⟩ s.pc.toNat = .error e → step s = .fault (Fault.ofDecode e))

/-- A step runs the decoded instruction: when what stands at `pc` decodes to `i`, the step is `exec i` and nothing
more (40_execution_cycle.md sections 1 and 2; cursor = `pc` is the spec's decision D1, log entry 8). -/
def Obligations.StepRunsTheDecodedInstruction : Prop :=
  ∀ (s : State) (n : Insn) (i : Instr),
    decode opcodeTable s.stream s.pc.toNat = .ok n → n.toInstr = some i → step s = exec i s

/-- When the bytes of PRG_ROM at `pc` are an instruction's encoding, the step is `exec` of that instruction
(40_execution_cycle.md section 1; decisions D1 and D8, log entries 7 and 8). -/
def Obligations.StepRunsTheEncodedInstruction : Prop :=
  ∀ (s : State) (i : Instr), s.stream.holds s.pc.toNat (encode i) = true → step s = exec i s

/-- Every outcome of a cycle, by the bytes at `pc` (30_encoding.md section 5, 40_execution_cycle.md section 1,
60_exceptions.md sections 1 and 3; decisions D1, D2 and D8, log entries 7 to 9; that MalformedOperand carries the cursor
is decision D23, log entry 13). -/
def Obligations.CycleOutcomeByBytes : Prop :=
  ∀ s : State,
    step s =
      if s.prgLen.bytes ≤ s.pc.toNat then .fault (.malformedOperand s.pc.toNat)
      else if s.romByte s.pc.toNat = 0x00#8 then exec .brk s
      else if s.romByte s.pc.toNat = 0x16#8 then
        if s.prgLen.bytes ≤ s.pc.toNat + 1 then .fault (.malformedOperand s.pc.toNat)
        else exec (.aslZpx (s.romByte (s.pc.toNat + 1))) s
      else if s.romByte s.pc.toNat = 0x29#8 then
        if s.prgLen.bytes ≤ s.pc.toNat + 1 then .fault (.malformedOperand s.pc.toNat)
        else exec (.andImm (s.romByte (s.pc.toNat + 1))) s
      else .fault (.unsupportedOpcode (some ⟨s.romByte s.pc.toNat, s.pc.toNat⟩))

/-- A cycle can raise only the two decode errors, at `pc`: never UnmappedAddress, ReadOnlyViolation or UnsupportedMapper
(60_exceptions.md section 1, 95_test_vectors.md part 4, property 2), and it never refuses (40_execution_cycle.md sections
1 and 2, R88 and R89). That the cursor is `pc` is the spec's decision D1 (log entry 8), that MalformedOperand carries it
decision D23 (log entry 13) and that it is raised at the end of the stream too decision D2 (log entry 9). -/
def Obligations.CycleFaultsOnlyInDecode : Prop :=
  ∀ s : State,
    (∀ f, step s = .fault f →
      f = .malformedOperand s.pc.toNat ∨ ∃ op, f = .unsupportedOpcode (some ⟨op, s.pc.toNat⟩)) ∧
    (∀ r, step s ≠ .refused r)

/-- A cycle that does not fault increases `pc` by 1 for a Break and by 2 otherwise, without wrapping, to at most PRG_LEN
(40_execution_cycle.md section 2, 95_test_vectors.md part 4, property 4). The counts 7, 2 and 6 are the spec's decision
D9, BRK's length 1 its decision D10 (log entry 7), that `pc` advances past a BRK its decision D11 (log entry 15); PRG_LEN
bounds `pc` because the cursor is `pc`, its decision D1 (log entry 8). -/
def Obligations.PcStrictlyIncreases : Prop :=
  ∀ s t : State, step s = .next t →
    ((t.out = some (.brk 7) ∧ t.pc.toNat = s.pc.toNat + 1) ∨
     ((t.out = some (.ok 2) ∨ t.out = some (.ok 6)) ∧ t.pc.toNat = s.pc.toNat + 2)) ∧
    t.pc.toNat ≤ s.prgLen.bytes

/-- No cycle changes SP, X, Y, PRG_ROM or the mapper, and only bytes of the zero page of RAM can change
(10_state.md section 3, 95_test_vectors.md part 4, property 3). -/
def Obligations.CycleChangesOnlyTheZeroPage : Prop :=
  ∀ s t : State, step s = .next t →
    t.sp = s.sp ∧ t.x = s.x ∧ t.y = s.y ∧ t.prgRom = s.prgRom ∧ t.prgLen = s.prgLen ∧ t.mapperId = s.mapperId ∧
    ∀ addr : Word, (0x1FFF < addr.toNat ∨ 0x0100 ≤ addr.toNat % 0x0800) → t.memRead addr = s.memRead addr

/-- The returned count is a pure output (40_execution_cycle.md section 2): no cycle reads what the last one returned. -/
def Obligations.ReturnedCountIsNeverRead : Prop :=
  ∀ (s : State) (o : Option Returned), step { s with out := o } = step s

/-- The machine has no infinite execution (70_reset_and_hazards.md section 3, an inference of the spec's own; the end of a
run is its decision D12, log entry 22): from every state a run ends within PRG_LEN cycles, by a Break or by one of the
two decode errors at the `pc` of the state before it (30_encoding.md section 5). The bound and the recorded `pc` rest on
cursor = `pc`, the spec's decision D1 (log entry 8), the fault at or past the end on its decision D2 (log entry 9), the
cursor in MalformedOperand on its decision D23 (log entry 13). -/
def Obligations.EveryRunEnds : Prop :=
  ∀ s : State,
    (∃ t n, runToEnd s.prgLen.bytes s = .completed t ∧ t.out = some (.brk n)) ∨
    (∃ t c, runToEnd s.prgLen.bytes s = .failed t (.malformedOperand c) ∧ c = t.pc.toNat) ∨
    (∃ t site, runToEnd s.prgLen.bytes s = .failed t (.unsupportedOpcode (some site)) ∧ site.cursor = t.pc.toNat)

/-- A tag without an execution clause raises UnsupportedOpcode with nothing recorded (40_execution_cycle.md section 2;
such a tag is log entry 17), whatever the other fields. -/
def Obligations.TagWithoutClauseFaults : Prop :=
  ∀ (s : State) (n : Insn) (k : Nat), n.opCode = .other k → stepInsn n s = .fault (.unsupportedOpcode none)

/-- The step on an Instruction value with a clause (40_execution_cycle.md section 2; the spec's decision D19, log entry
12): a well-formed one is executed, and is some instruction's; an ill-formed one is refused. -/
def Obligations.StepNeedsAWellFormedInstruction : Prop :=
  ∀ (s : State) (n : Insn), (∀ k, n.opCode ≠ .other k) →
    (n.wellFormed opcodeTable = true → ∃ i : Instr, n = i.toInsn ∧ stepInsn n s = exec i s) ∧
    (n.wellFormed opcodeTable = false → stepInsn n s = .refused .malformedInstruction)

/-- A table word placed at the fetch is what the next step runs, in every state (the model's own loading convention, log
entry 19; opcode bytes decision D8, log entry 7; cursor = `pc` decision D1, log entry 8). -/
def Obligations.PlacedTableWordRuns : Prop :=
  ∀ (s : State) (b : Byte),
    decodeTableWord 8 0x00 = some .brk ∧
    step (s.withFetchWord 8 0x00) = exec .brk (s.withFetchWord 8 0x00) ∧
    decodeTableWord 16 (0x16 + 256 * b.toNat) = some (.aslZpx b) ∧
    step (s.withFetchWord 16 (0x16 + 256 * b.toNat)) =
      exec (.aslZpx b) (s.withFetchWord 16 (0x16 + 256 * b.toNat)) ∧
    decodeTableWord 16 (0x29 + 256 * b.toNat) = some (.andImm b) ∧
    step (s.withFetchWord 16 (0x29 + 256 * b.toNat)) =
      exec (.andImm b) (s.withFetchWord 16 (0x29 + 256 * b.toNat))

/-! ## The invariant, reset and construction -/

/-- Every step keeps the invariant: both memories canonical and within their sizes, the mapper 0
(10_state.md sections 1 and 5). -/
def Obligations.StepKeepsTheInvariant : Prop :=
  ∀ s t : State, s.Inv → step s = .next t → t.Inv

/-- The invariant holds after reset (10_state.md section 7; what RAM and PRG_ROM hold there is the model's choice, log
entries 4 and 5). -/
def Obligations.ResetMeetsTheInvariant : Prop := State.reset.Inv

/-- Every host action keeps the invariant (70_reset_and_hazards.md section 2; the host's access to registers and bus is
the spec's decision D20, its actions the model's `Action`, log entry 16). So does placing a table word, which is the
model's own loading and no rule of the spec (log entries 5 and 19). -/
def Obligations.HostKeepsTheInvariant : Prop :=
  (∀ (se se' : Session) (act : Action) (r : Reply), se.machine.Inv → se.act act = .ok (se', r) → se'.machine.Inv) ∧
  (∀ (s : State) (nbits w : Nat), s.Inv → (s.withFetchWord nbits w).Inv)

/-- States of the invariant that agree on the registers, PRG_LEN and the last return, and read alike on the whole bus,
are equal (the model's canonical memory, log entries 4 and 5, and its `out`, log entry 2). -/
def Obligations.EqualReadsMeanEqualStates : Prop :=
  ∀ s t : State, s.Inv → t.Inv → s.pc = t.pc → (∀ r, s.reg r = t.reg r) → s.prgLen = t.prgLen → s.out = t.out →
    (∀ addr, s.memRead addr = t.memRead addr) → s = t

/-- What construction answers, for every mapper identifier, buffer and value of the OPEN parameters (20_memory.md
section 5, 10_state.md section 7, 70_reset_and_hazards.md section 1): SP = 0xFF, every OPEN item at its parameter,
RAM = RAM_INIT, PRG_ROM = the buffer. That any natural number may be presented as identifier is the spec's decision D24
(log entry 20), that UnsupportedMapper records it its decision D14 (60_exceptions.md section 1, log entry 13), refusing
other lengths its decision D13 (log entry 11); that nothing has been returned yet (`out = none`) is the model's choice
(log entry 2). -/
def Obligations.ConstructionOutcome : Prop :=
  ∀ (mapperId : Nat) (rom : List Byte) (par : PowerOn),
    (mapperId ≠ 0 → construct mapperId rom par = .fault (.unsupportedMapper mapperId)) ∧
    (mapperId = 0 → (rom.length = 16384 ∨ rom.length = 32768) →
      ∃ t, construct mapperId rom par = .next t ∧ t.sp = 0xFF#8 ∧ t.mapperId = 0 ∧ t.pc = par.resetPc ∧
        t.a = par.resetA ∧ t.x = par.resetX ∧ t.y = par.resetY ∧ t.p = par.resetP ∧ t.out = none ∧
        t.prgLen.bytes = rom.length ∧ (∀ i, i < rom.length → some (t.romByte i) = rom[i]?) ∧
        (∀ i : Fin 2048, t.ramByte i.val = par.ramInit[i.val]) ∧ t.Inv) ∧
    (mapperId = 0 → rom.length ≠ 16384 → rom.length ≠ 32768 →
      construct mapperId rom par = .refused (.unsupportedPrgLength rom.length))

/-- The reset values the spec gives: SP = 0xFF and mapper 0 (10_state.md section 7). -/
def Obligations.ResetStackPointer : Prop := State.reset.sp = 0xFF#8 ∧ State.reset.mapperId = 0

/-- Reset is construction with the values of the spec's examples and a 16 KiB image of 0x00 (the model's choice, log
entries 2 to 5). -/
def Obligations.ResetIsAConstruction : Prop :=
  construct 0 (List.replicate 16384 0x00#8) PowerOn.zero = .next State.reset

/-! ## The host's session -/

/-- A fault is terminal (60_exceptions.md section 2; the spec's decision D16, log entry 14): on a faulted session every
action but ending it is refused. On an ended one, whatever fault it recorded, every action is: for the spec the block
ceases to exist when the session ends (70_reset_and_hazards.md sections 1 and 2), and that the model keeps it as a session
that refuses is its own choice (log entry 16). -/
def Obligations.FaultIsTerminal : Prop :=
  ∀ (se : Session) (act : Action),
    (∀ f, se.status = .faulted f → act ≠ .endSession → se.act act = .error .sessionOver) ∧
    (∀ recorded, se.status = .ended recorded → se.act act = .error .sessionOver)

/-- Faults are precise and leave the total alone (60_exceptions.md sections 2 and 7; decisions D15 and D18, log entries
14 and 16): an action answered by an error leaves the machine and the total as they were. -/
def Obligations.FaultIsPrecise : Prop :=
  ∀ (se se' : Session) (act : Action) (f : Fault), se.act act = .ok (se', .error f) →
    se' = { se with status := .faulted f }

/-- TOTAL_CYCLES grows by what a cycle returns (60_exceptions.md section 7; the host's own count, decision D18, log entry
16), and a Break leaves the session live (section 5, decision D11, log entry 15). The counts, 7 for BRK, 6 for ASL and 2
for AND, are the spec's decision D9 (log entry 7). -/
def Obligations.TotalCyclesAccumulates : Prop :=
  ∀ (se : Session) (t : State), se.status = .live → step se.machine = .next t →
    ∃ r, t.out = some r ∧
      se.act .cycle = .ok (⟨t, .live, se.totalCycles + r.cycles⟩, .returned r) ∧
      (r = .brk 7 ∨ r = .ok 6 ∨ r = .ok 2)

/-- A fault of a cycle reaches the host with the error it raised (60_exceptions.md section 2); the machine and the total
are kept (the spec's decisions D15 and D18, log entries 14 and 16), and the session is faulted with that error (its
decision D16, log entry 14). -/
def Obligations.CycleFaultReachesTheHost : Prop :=
  ∀ (se : Session) (f : Fault), se.status = .live → step se.machine = .fault f →
    se.act .cycle = .ok ({ se with status := .faulted f }, .error f)

/-- The fault status is never cleared (60_exceptions.md section 2; the spec's decision D16, log entry 14): a session that
has recorded a fault completes no action but its end, and after the end the fault is still recorded, and the machine and
the total are as the fault left them. The total is the host's own count (section 7; the spec's decision D18, log entry 16).
That an ended session still holds its machine and total is the model's choice (log entry 16): for the spec the block ceases
to exist (70_reset_and_hazards.md section 2). -/
def Obligations.FaultIsNeverCleared : Prop :=
  ∀ (se : Session) (f : Fault), se.status.fault = some f →
    (∀ act se' r, se.act act = .ok (se', r) →
      act = .endSession ∧ r = .done ∧ se'.status = .ended (some f) ∧ se'.machine = se.machine ∧
      se'.totalCycles = se.totalCycles) ∧
    (∀ acts se', se.actAll acts = .ok se' →
      se'.status.fault = some f ∧ se'.machine = se.machine ∧ se'.totalCycles = se.totalCycles)

/-- SP changes only where the host writes it (10_state.md section 3, 70_reset_and_hazards.md section 2, the launch
premises; SP as an inert cell is the spec's decision D17, log entry 6, the host's access its decision D20, log entry 16):
after any completed actions, cycles among them, SP is the last value the host wrote there, else as before. -/
def Obligations.OnlyTheHostChangesSp : Prop :=
  ∀ (acts : List Action) (se se' : Session), se.actAll acts = .ok se' →
    se'.machine.sp = Action.spAfterAll acts se.machine.sp
end

