-- ==== Sys2Proof/Laws/Decode.lean ====
section
/-! SUPPORT. Laws of the opcode table, of the Instruction value and of the decoder: everything it can answer, once. -/

namespace Sys2Proof

theorem opcodeTable_wellFormed : OpcodeTable.wellFormed opcodeTable = true := by decide

/-- The rows of the table, by opcode byte (R66). -/
theorem row_some {op : Byte} {r : Row} (h : OpcodeTable.row opcodeTable op = some r) :
    (op = 0x00#8 ∧ r = rowBrk) ∨ (op = 0x16#8 ∧ r = rowAsl) ∨ (op = 0x29#8 ∧ r = rowAnd) := by
  simp only [opcodeTable, OpcodeTable.row] at h
  split at h
  · next h1 => exact .inl ⟨h1.symm, (Option.some.inj h).symm⟩
  · split at h
    · next h1 => exact .inr (.inl ⟨h1.symm, (Option.some.inj h).symm⟩)
    · split at h
      · next h1 => exact .inr (.inr ⟨h1.symm, (Option.some.inj h).symm⟩)
      · cases h

/-- A byte without a row is none of the three (R67). -/
theorem row_none {op : Byte} :
    OpcodeTable.row opcodeTable op = none ↔ op ≠ 0x00#8 ∧ op ≠ 0x16#8 ∧ op ≠ 0x29#8 := by
  simp only [opcodeTable, OpcodeTable.row]
  constructor
  · intro h
    split at h
    · cases h
    · next h1 =>
      split at h
      · cases h
      · next h2 =>
        split at h
        · cases h
        · next h3 => exact ⟨fun e => h1 e.symm, fun e => h2 e.symm, fun e => h3 e.symm⟩
  · rintro ⟨h1, h2, h3⟩
    rw [if_neg (fun e => h1 e.symm), if_neg (fun e => h2 e.symm), if_neg (fun e => h3 e.symm)]

/-- Every instruction is a well-formed Instruction value (R89). -/
theorem Instr.toInsn_wellFormed (i : Instr) : i.toInsn.wellFormed opcodeTable = true := by cases i <;> rfl

/-- An instruction is read back from its Instruction value. -/
theorem Instr.toInstr_toInsn (i : Instr) : i.toInsn.toInstr = some i := by cases i <;> rfl

/-- A tag's row gives the only `bytes` and `cycles` a well-formed Instruction value can have. -/
theorem Insn.agreesWith_opcodeTable {i : Insn} (h : i.agreesWith opcodeTable = true) :
    (i.opCode = .brk ∧ i.bytes = 1 ∧ i.cycles = 7) ∨ (i.opCode = .aslZeroPageX ∧ i.bytes = 2 ∧ i.cycles = 6) ∨
    (i.opCode = .andImmediate ∧ i.bytes = 2 ∧ i.cycles = 2) := by
  simp only [Insn.agreesWith, opcodeTable, List.any_cons, List.any_nil, Bool.or_false, Bool.or_eq_true,
    Bool.and_eq_true, beq_iff_eq, rowBrk, rowAsl, rowAnd] at h
  rcases h with ⟨⟨h1, h2⟩, h3⟩ | ⟨⟨h1, h2⟩, h3⟩ | ⟨⟨h1, h2⟩, h3⟩
  · exact .inl ⟨h1.symm, h2.symm, h3.symm⟩
  · exact .inr (.inl ⟨h1.symm, h2.symm, h3.symm⟩)
  · exact .inr (.inr ⟨h1.symm, h2.symm, h3.symm⟩)

/-- A well-formed Instruction value is that of exactly one instruction (R71, R89). -/
theorem Insn.eq_toInsn {n : Insn} (h : n.wellFormed opcodeTable = true) : ∃ i : Instr, n = i.toInsn := by
  obtain ⟨t, sh, lo, b, c⟩ := n
  simp only [Insn.wellFormed, Bool.and_eq_true] at h
  obtain ⟨⟨_, hm⟩, ha⟩ := h
  rcases Insn.agreesWith_opcodeTable ha with ⟨h1, h2, h3⟩ | ⟨h1, h2, h3⟩ | ⟨h1, h2, h3⟩
  all_goals
    simp only at h1 h2 h3
    subst h1 h2 h3
    cases sh <;> cases lo <;> simp [Insn.meetsClause] at hm
  · exact ⟨.brk, rfl⟩
  · exact ⟨.aslZpx _, rfl⟩
  · exact ⟨.andImm _, rfl⟩

/-- The instruction of an Instruction value determines it. -/
theorem Insn.toInstr_some {n : Insn} {i : Instr} (h : n.toInstr = some i) : n = i.toInsn := by
  by_cases hw : n.wellFormed opcodeTable = true
  · obtain ⟨j, rfl⟩ := Insn.eq_toInsn hw
    rw [Instr.toInstr_toInsn] at h
    rw [Option.some.inj h]
  · simp [Insn.toInstr, hw] at h

/-- No well-formed Instruction value is without an instruction. -/
theorem Insn.toInstr_none {n : Insn} (h : n.toInstr = none) : n.wellFormed opcodeTable = false := by
  cases hw : n.wellFormed opcodeTable with
  | false => rfl
  | true =>
    obtain ⟨j, rfl⟩ := Insn.eq_toInsn hw
    rw [Instr.toInstr_toInsn] at h; cases h

theorem Stream.read_of_lt {s : Stream} {c : Nat} (h : c < s.len) : s.read c = some (s.cells.get c) := by
  simp [Stream.read, h]

theorem Stream.read_some {s : Stream} {c : Nat} {b : Byte} (h : s.read c = some b) : c < s.len := by
  unfold Stream.read at h
  split at h
  · assumption
  · cases h

theorem Stream.read_none {s : Stream} {c : Nat} : s.read c = none ↔ s.len ≤ c := by
  unfold Stream.read
  split <;> simp <;> omega

/-- What decode answers where the opcode byte has a row and its bytes fit (R69). -/
theorem decode_row {t : OpcodeTable} {s : Stream} {c : Nat} {op : Byte} {r : Row} (hr : s.read c = some op)
    (ht : OpcodeTable.row t op = some r) (fit : c + r.bytes ≤ s.len) : decode t s c = .ok (assemble r s c) := by
  unfold decode
  rw [hr]; simp only [ht]
  rw [if_neg (by omega)]

/-- Everything the decoder can answer well: the three encodings, each with its operand byte in the stream (R66, R69). -/
theorem decode_ok_cases {s : Stream} {c : Nat} {n : Insn} (h : decode opcodeTable s c = .ok n) :
    (s.read c = some 0x00#8 ∧ n = Instr.brk.toInsn) ∨
    (∃ b, s.read c = some 0x16#8 ∧ s.read (c + 1) = some b ∧ n = (Instr.aslZpx b).toInsn) ∨
    (∃ b, s.read c = some 0x29#8 ∧ s.read (c + 1) = some b ∧ n = (Instr.andImm b).toInsn) := by
  unfold decode at h
  split at h
  · cases h
  · next op hop =>
    split at h
    · cases h
    · next r hr =>
      split at h
      · cases h
      · next fit =>
        cases h
        rcases row_some hr with ⟨rfl, rfl⟩ | ⟨rfl, rfl⟩ | ⟨rfl, rfl⟩
        · exact .inl ⟨hop, rfl⟩
        · have hlt : c + 1 < s.len := by simp [rowAsl] at fit; omega
          refine .inr (.inl ⟨s.cells.get (c + 1), hop, Stream.read_of_lt hlt, ?_⟩)
          simp [assemble, rowAsl, shortOperand, longOperand, Stream.read_of_lt hlt, Instr.toInsn]
        · have hlt : c + 1 < s.len := by simp [rowAnd] at fit; omega
          refine .inr (.inr ⟨s.cells.get (c + 1), hop, Stream.read_of_lt hlt, ?_⟩)
          simp [assemble, rowAnd, shortOperand, longOperand, Stream.read_of_lt hlt, Instr.toInsn]

/-- Every Instruction the decoder produces stands for an instruction (R89). -/
theorem decode_ok_toInsn {s : Stream} {c : Nat} {n : Insn} (h : decode opcodeTable s c = .ok n) :
    ∃ i : Instr, n = i.toInsn := by
  rcases decode_ok_cases h with ⟨_, rfl⟩ | ⟨b, _, _, rfl⟩ | ⟨b, _, _, rfl⟩
  · exact ⟨_, rfl⟩
  · exact ⟨_, rfl⟩
  · exact ⟨_, rfl⟩

/-- The bytes of an accepted instruction lie inside the stream (R68). -/
theorem decode_ok_fits {t : OpcodeTable} {s : Stream} {c : Nat} {n : Insn} (h : decode t s c = .ok n) :
    c < s.len ∧ c + n.bytes ≤ s.len := by
  unfold decode at h
  split at h
  · cases h
  · next op hop =>
    split at h
    · cases h
    · split at h
      · cases h
      · next fit => cases h; exact ⟨Stream.read_some hop, by simpa [assemble] using fit⟩

/-- The two errors of the decoder and what each records (R67, R68). -/
theorem decode_error_cases {t : OpcodeTable} {s : Stream} {c : Nat} {e : DecodeError}
    (h : decode t s c = .error e) :
    e = .malformedOperand c ∨ ∃ op, s.read c = some op ∧ OpcodeTable.row t op = none ∧ e = .unsupportedOpcode op c := by
  unfold decode at h
  split at h
  · cases h; exact .inl rfl
  · next op hop =>
    split at h
    · next hr => cases h; exact .inr ⟨op, hop, hr, rfl⟩
    · split at h <;> cases h
      exact .inl rfl

end Sys2Proof
end

