-- ==== Sys2Proof/Laws/State.lean ====
section
/-! SUPPORT. One lemma per field per update of State, so that no proof unfolds a record update. -/

namespace Sys2Proof.Machine

@[simp] theorem State.setReg_a_pc (s : State) (v : Byte) : (s.setReg .a v).pc = s.pc := rfl
@[simp] theorem State.setReg_a_sp (s : State) (v : Byte) : (s.setReg .a v).sp = s.sp := rfl
@[simp] theorem State.setReg_a_a (s : State) (v : Byte) : (s.setReg .a v).a = v := rfl
@[simp] theorem State.setReg_a_x (s : State) (v : Byte) : (s.setReg .a v).x = s.x := rfl
@[simp] theorem State.setReg_a_y (s : State) (v : Byte) : (s.setReg .a v).y = s.y := rfl
@[simp] theorem State.setReg_a_p (s : State) (v : Byte) : (s.setReg .a v).p = s.p := rfl
@[simp] theorem State.setReg_a_ram (s : State) (v : Byte) : (s.setReg .a v).ram = s.ram := rfl
@[simp] theorem State.setReg_a_prgRom (s : State) (v : Byte) : (s.setReg .a v).prgRom = s.prgRom := rfl
@[simp] theorem State.setReg_a_prgLen (s : State) (v : Byte) : (s.setReg .a v).prgLen = s.prgLen := rfl
@[simp] theorem State.setReg_a_mapperId (s : State) (v : Byte) : (s.setReg .a v).mapperId = s.mapperId := rfl
@[simp] theorem State.setReg_a_out (s : State) (v : Byte) : (s.setReg .a v).out = s.out := rfl

@[simp] theorem State.setReg_x_pc (s : State) (v : Byte) : (s.setReg .x v).pc = s.pc := rfl
@[simp] theorem State.setReg_x_sp (s : State) (v : Byte) : (s.setReg .x v).sp = s.sp := rfl
@[simp] theorem State.setReg_x_a (s : State) (v : Byte) : (s.setReg .x v).a = s.a := rfl
@[simp] theorem State.setReg_x_x (s : State) (v : Byte) : (s.setReg .x v).x = v := rfl
@[simp] theorem State.setReg_x_y (s : State) (v : Byte) : (s.setReg .x v).y = s.y := rfl
@[simp] theorem State.setReg_x_p (s : State) (v : Byte) : (s.setReg .x v).p = s.p := rfl
@[simp] theorem State.setReg_x_ram (s : State) (v : Byte) : (s.setReg .x v).ram = s.ram := rfl
@[simp] theorem State.setReg_x_prgRom (s : State) (v : Byte) : (s.setReg .x v).prgRom = s.prgRom := rfl
@[simp] theorem State.setReg_x_prgLen (s : State) (v : Byte) : (s.setReg .x v).prgLen = s.prgLen := rfl
@[simp] theorem State.setReg_x_mapperId (s : State) (v : Byte) : (s.setReg .x v).mapperId = s.mapperId := rfl
@[simp] theorem State.setReg_x_out (s : State) (v : Byte) : (s.setReg .x v).out = s.out := rfl

@[simp] theorem State.setReg_y_pc (s : State) (v : Byte) : (s.setReg .y v).pc = s.pc := rfl
@[simp] theorem State.setReg_y_sp (s : State) (v : Byte) : (s.setReg .y v).sp = s.sp := rfl
@[simp] theorem State.setReg_y_a (s : State) (v : Byte) : (s.setReg .y v).a = s.a := rfl
@[simp] theorem State.setReg_y_x (s : State) (v : Byte) : (s.setReg .y v).x = s.x := rfl
@[simp] theorem State.setReg_y_y (s : State) (v : Byte) : (s.setReg .y v).y = v := rfl
@[simp] theorem State.setReg_y_p (s : State) (v : Byte) : (s.setReg .y v).p = s.p := rfl
@[simp] theorem State.setReg_y_ram (s : State) (v : Byte) : (s.setReg .y v).ram = s.ram := rfl
@[simp] theorem State.setReg_y_prgRom (s : State) (v : Byte) : (s.setReg .y v).prgRom = s.prgRom := rfl
@[simp] theorem State.setReg_y_prgLen (s : State) (v : Byte) : (s.setReg .y v).prgLen = s.prgLen := rfl
@[simp] theorem State.setReg_y_mapperId (s : State) (v : Byte) : (s.setReg .y v).mapperId = s.mapperId := rfl
@[simp] theorem State.setReg_y_out (s : State) (v : Byte) : (s.setReg .y v).out = s.out := rfl

@[simp] theorem State.setReg_sp_pc (s : State) (v : Byte) : (s.setReg .sp v).pc = s.pc := rfl
@[simp] theorem State.setReg_sp_sp (s : State) (v : Byte) : (s.setReg .sp v).sp = v := rfl
@[simp] theorem State.setReg_sp_a (s : State) (v : Byte) : (s.setReg .sp v).a = s.a := rfl
@[simp] theorem State.setReg_sp_x (s : State) (v : Byte) : (s.setReg .sp v).x = s.x := rfl
@[simp] theorem State.setReg_sp_y (s : State) (v : Byte) : (s.setReg .sp v).y = s.y := rfl
@[simp] theorem State.setReg_sp_p (s : State) (v : Byte) : (s.setReg .sp v).p = s.p := rfl
@[simp] theorem State.setReg_sp_ram (s : State) (v : Byte) : (s.setReg .sp v).ram = s.ram := rfl
@[simp] theorem State.setReg_sp_prgRom (s : State) (v : Byte) : (s.setReg .sp v).prgRom = s.prgRom := rfl
@[simp] theorem State.setReg_sp_prgLen (s : State) (v : Byte) : (s.setReg .sp v).prgLen = s.prgLen := rfl
@[simp] theorem State.setReg_sp_mapperId (s : State) (v : Byte) : (s.setReg .sp v).mapperId = s.mapperId := rfl
@[simp] theorem State.setReg_sp_out (s : State) (v : Byte) : (s.setReg .sp v).out = s.out := rfl

@[simp] theorem State.setReg_p_pc (s : State) (v : Byte) : (s.setReg .p v).pc = s.pc := rfl
@[simp] theorem State.setReg_p_sp (s : State) (v : Byte) : (s.setReg .p v).sp = s.sp := rfl
@[simp] theorem State.setReg_p_a (s : State) (v : Byte) : (s.setReg .p v).a = s.a := rfl
@[simp] theorem State.setReg_p_x (s : State) (v : Byte) : (s.setReg .p v).x = s.x := rfl
@[simp] theorem State.setReg_p_y (s : State) (v : Byte) : (s.setReg .p v).y = s.y := rfl
@[simp] theorem State.setReg_p_p (s : State) (v : Byte) : (s.setReg .p v).p = v := rfl
@[simp] theorem State.setReg_p_ram (s : State) (v : Byte) : (s.setReg .p v).ram = s.ram := rfl
@[simp] theorem State.setReg_p_prgRom (s : State) (v : Byte) : (s.setReg .p v).prgRom = s.prgRom := rfl
@[simp] theorem State.setReg_p_prgLen (s : State) (v : Byte) : (s.setReg .p v).prgLen = s.prgLen := rfl
@[simp] theorem State.setReg_p_mapperId (s : State) (v : Byte) : (s.setReg .p v).mapperId = s.mapperId := rfl
@[simp] theorem State.setReg_p_out (s : State) (v : Byte) : (s.setReg .p v).out = s.out := rfl

@[simp] theorem State.putRam_pc (s : State) (i : Nat) (v : Byte) : (s.putRam i v).pc = s.pc := rfl
@[simp] theorem State.putRam_sp (s : State) (i : Nat) (v : Byte) : (s.putRam i v).sp = s.sp := rfl
@[simp] theorem State.putRam_a (s : State) (i : Nat) (v : Byte) : (s.putRam i v).a = s.a := rfl
@[simp] theorem State.putRam_x (s : State) (i : Nat) (v : Byte) : (s.putRam i v).x = s.x := rfl
@[simp] theorem State.putRam_y (s : State) (i : Nat) (v : Byte) : (s.putRam i v).y = s.y := rfl
@[simp] theorem State.putRam_p (s : State) (i : Nat) (v : Byte) : (s.putRam i v).p = s.p := rfl
@[simp] theorem State.putRam_ram (s : State) (i : Nat) (v : Byte) : (s.putRam i v).ram = s.ram.set i v := rfl
@[simp] theorem State.putRam_prgRom (s : State) (i : Nat) (v : Byte) : (s.putRam i v).prgRom = s.prgRom := rfl
@[simp] theorem State.putRam_prgLen (s : State) (i : Nat) (v : Byte) : (s.putRam i v).prgLen = s.prgLen := rfl
@[simp] theorem State.putRam_mapperId (s : State) (i : Nat) (v : Byte) : (s.putRam i v).mapperId = s.mapperId := rfl
@[simp] theorem State.putRam_out (s : State) (i : Nat) (v : Byte) : (s.putRam i v).out = s.out := rfl

@[simp] theorem State.advancePc_pc (s : State) (n : Nat) : (s.advancePc n).pc = s.pc + BitVec.ofNat 16 n := rfl
@[simp] theorem State.advancePc_sp (s : State) (n : Nat) : (s.advancePc n).sp = s.sp := rfl
@[simp] theorem State.advancePc_a (s : State) (n : Nat) : (s.advancePc n).a = s.a := rfl
@[simp] theorem State.advancePc_x (s : State) (n : Nat) : (s.advancePc n).x = s.x := rfl
@[simp] theorem State.advancePc_y (s : State) (n : Nat) : (s.advancePc n).y = s.y := rfl
@[simp] theorem State.advancePc_p (s : State) (n : Nat) : (s.advancePc n).p = s.p := rfl
@[simp] theorem State.advancePc_ram (s : State) (n : Nat) : (s.advancePc n).ram = s.ram := rfl
@[simp] theorem State.advancePc_prgRom (s : State) (n : Nat) : (s.advancePc n).prgRom = s.prgRom := rfl
@[simp] theorem State.advancePc_prgLen (s : State) (n : Nat) : (s.advancePc n).prgLen = s.prgLen := rfl
@[simp] theorem State.advancePc_mapperId (s : State) (n : Nat) : (s.advancePc n).mapperId = s.mapperId := rfl
@[simp] theorem State.advancePc_out (s : State) (n : Nat) : (s.advancePc n).out = s.out := rfl

@[simp] theorem State.completeOk_pc (s : State) (r : Row) : (s.completeOk r).pc = s.pc + BitVec.ofNat 16 r.bytes := rfl
@[simp] theorem State.completeOk_sp (s : State) (r : Row) : (s.completeOk r).sp = s.sp := rfl
@[simp] theorem State.completeOk_a (s : State) (r : Row) : (s.completeOk r).a = s.a := rfl
@[simp] theorem State.completeOk_x (s : State) (r : Row) : (s.completeOk r).x = s.x := rfl
@[simp] theorem State.completeOk_y (s : State) (r : Row) : (s.completeOk r).y = s.y := rfl
@[simp] theorem State.completeOk_p (s : State) (r : Row) : (s.completeOk r).p = s.p := rfl
@[simp] theorem State.completeOk_ram (s : State) (r : Row) : (s.completeOk r).ram = s.ram := rfl
@[simp] theorem State.completeOk_prgRom (s : State) (r : Row) : (s.completeOk r).prgRom = s.prgRom := rfl
@[simp] theorem State.completeOk_prgLen (s : State) (r : Row) : (s.completeOk r).prgLen = s.prgLen := rfl
@[simp] theorem State.completeOk_mapperId (s : State) (r : Row) : (s.completeOk r).mapperId = s.mapperId := rfl
@[simp] theorem State.completeOk_out (s : State) (r : Row) : (s.completeOk r).out = some (.ok (Row.count r)) := rfl

@[simp] theorem State.completeBreak_pc (s : State) (r : Row) : (s.completeBreak r).pc = s.pc + BitVec.ofNat 16 r.bytes := rfl
@[simp] theorem State.completeBreak_sp (s : State) (r : Row) : (s.completeBreak r).sp = s.sp := rfl
@[simp] theorem State.completeBreak_a (s : State) (r : Row) : (s.completeBreak r).a = s.a := rfl
@[simp] theorem State.completeBreak_x (s : State) (r : Row) : (s.completeBreak r).x = s.x := rfl
@[simp] theorem State.completeBreak_y (s : State) (r : Row) : (s.completeBreak r).y = s.y := rfl
@[simp] theorem State.completeBreak_p (s : State) (r : Row) : (s.completeBreak r).p = s.p := rfl
@[simp] theorem State.completeBreak_ram (s : State) (r : Row) : (s.completeBreak r).ram = s.ram := rfl
@[simp] theorem State.completeBreak_prgRom (s : State) (r : Row) : (s.completeBreak r).prgRom = s.prgRom := rfl
@[simp] theorem State.completeBreak_prgLen (s : State) (r : Row) : (s.completeBreak r).prgLen = s.prgLen := rfl
@[simp] theorem State.completeBreak_mapperId (s : State) (r : Row) : (s.completeBreak r).mapperId = s.mapperId := rfl
@[simp] theorem State.completeBreak_out (s : State) (r : Row) : (s.completeBreak r).out = some (.brk (Row.count r)) := rfl

@[simp] theorem State.setFlag_pc (s : State) (f : Flag) (b : Bool) : (s.setFlag f b).pc = s.pc := rfl
@[simp] theorem State.setFlag_sp (s : State) (f : Flag) (b : Bool) : (s.setFlag f b).sp = s.sp := rfl
@[simp] theorem State.setFlag_a (s : State) (f : Flag) (b : Bool) : (s.setFlag f b).a = s.a := rfl
@[simp] theorem State.setFlag_x (s : State) (f : Flag) (b : Bool) : (s.setFlag f b).x = s.x := rfl
@[simp] theorem State.setFlag_y (s : State) (f : Flag) (b : Bool) : (s.setFlag f b).y = s.y := rfl
@[simp] theorem State.setFlag_p (s : State) (f : Flag) (b : Bool) : (s.setFlag f b).p = putBit s.p f.bit b := rfl
@[simp] theorem State.setFlag_ram (s : State) (f : Flag) (b : Bool) : (s.setFlag f b).ram = s.ram := rfl
@[simp] theorem State.setFlag_prgRom (s : State) (f : Flag) (b : Bool) : (s.setFlag f b).prgRom = s.prgRom := rfl
@[simp] theorem State.setFlag_prgLen (s : State) (f : Flag) (b : Bool) : (s.setFlag f b).prgLen = s.prgLen := rfl
@[simp] theorem State.setFlag_mapperId (s : State) (f : Flag) (b : Bool) : (s.setFlag f b).mapperId = s.mapperId := rfl
@[simp] theorem State.setFlag_out (s : State) (f : Flag) (b : Bool) : (s.setFlag f b).out = s.out := rfl

@[simp] theorem State.setZN_pc (s : State) (r : Byte) : (s.setZN r).pc = s.pc := rfl
@[simp] theorem State.setZN_sp (s : State) (r : Byte) : (s.setZN r).sp = s.sp := rfl
@[simp] theorem State.setZN_a (s : State) (r : Byte) : (s.setZN r).a = s.a := rfl
@[simp] theorem State.setZN_x (s : State) (r : Byte) : (s.setZN r).x = s.x := rfl
@[simp] theorem State.setZN_y (s : State) (r : Byte) : (s.setZN r).y = s.y := rfl
@[simp] theorem State.setZN_p (s : State) (r : Byte) : (s.setZN r).p = putBit (putBit s.p 1 (zeroOf r)) 7 (negativeOf r) := rfl
@[simp] theorem State.setZN_ram (s : State) (r : Byte) : (s.setZN r).ram = s.ram := rfl
@[simp] theorem State.setZN_prgRom (s : State) (r : Byte) : (s.setZN r).prgRom = s.prgRom := rfl
@[simp] theorem State.setZN_prgLen (s : State) (r : Byte) : (s.setZN r).prgLen = s.prgLen := rfl
@[simp] theorem State.setZN_mapperId (s : State) (r : Byte) : (s.setZN r).mapperId = s.mapperId := rfl
@[simp] theorem State.setZN_out (s : State) (r : Byte) : (s.setZN r).out = s.out := rfl

@[simp] theorem State.reg_a (s : State) : s.reg .a = s.a := rfl
@[simp] theorem State.reg_x (s : State) : s.reg .x = s.x := rfl
@[simp] theorem State.reg_y (s : State) : s.reg .y = s.y := rfl
@[simp] theorem State.reg_sp (s : State) : s.reg .sp = s.sp := rfl
@[simp] theorem State.reg_p (s : State) : s.reg .p = s.p := rfl

/-- A register written reads back (R13, R26). -/
theorem State.reg_setReg_same (s : State) (r : Reg) (v : Byte) : (s.setReg r v).reg r = v := by cases r <;> rfl

/-- No register aliases another (R13). -/
theorem State.reg_setReg_other (s : State) (r q : Reg) (v : Byte) (h : r ≠ q) : (s.setReg r v).reg q = s.reg q := by
  cases r <;> cases q <;> first | rfl | exact absurd rfl h

/-- States with equal fields are equal. -/
theorem State.eq_of_fields {s t : State} (hpc : s.pc = t.pc) (hsp : s.sp = t.sp) (ha : s.a = t.a) (hx : s.x = t.x)
    (hy : s.y = t.y) (hp : s.p = t.p) (hram : s.ram = t.ram) (hrom : s.prgRom = t.prgRom)
    (hlen : s.prgLen = t.prgLen) (hmap : s.mapperId = t.mapperId) (hout : s.out = t.out) : s = t := by
  cases s; cases t; simp_all

end Sys2Proof.Machine
end

