-- ==== Sys2Proof/Laws/Flags.lean ====
section
/-! SUPPORT. Laws of the flag writes: one bit changes and no other. -/

namespace Sys2Proof.Machine

/-- Reading any bit of a status byte after one of its bits was written (R8). -/
theorem getLsbD_putBit (p : Byte) (i : Nat) (b : Bool) (hi : i < 8) (j : Nat) (hj : j < 8) :
    (putBit p i b).getLsbD j = if i = j then b else p.getLsbD j := by
  unfold putBit
  have key : (1#8 <<< i).getLsbD j = decide (i = j) := by
    rw [BitVec.getLsbD_shiftLeft, BitVec.getLsbD_one]
    by_cases h : i = j
    · subst h; simp [hi]
    · simp [h, hj]; omega
  cases b with
  | true =>
    simp only [if_true, BitVec.getLsbD_or, key]
    by_cases h : i = j <;> simp [h]
  | false =>
    simp only [Bool.false_eq_true, if_false, BitVec.getLsbD_and, BitVec.getLsbD_not, key, hj]
    by_cases h : i = j <;> simp [h]

theorem Flag.bit_lt (f : Flag) : f.bit < 8 := by cases f <;> decide

theorem Flag.bit_inj {f g : Flag} (h : f.bit = g.bit) : f = g := by cases f <;> cases g <;> first | rfl | cases h

/-- A flag reads as the bit of the status register at its place. -/
theorem State.flag_eq (s : State) (f : Flag) : s.flag f = s.p.getLsbD f.bit := rfl

/-- A flag written reads back, and every other flag keeps its value (R8, R14). -/
theorem State.flag_setFlag (s : State) (f g : Flag) (b : Bool) :
    (s.setFlag f b).flag g = if f = g then b else s.flag g := by
  rw [State.flag_eq, State.setFlag_p, getLsbD_putBit _ _ _ f.bit_lt _ g.bit_lt, State.flag_eq]
  by_cases h : f = g
  · subst h; simp
  · rw [if_neg h, if_neg (fun hb => h (Flag.bit_inj hb))]

/-- The status bits after Z and N are written from a result: those two, and the rest as before (R15, R16, R94). -/
theorem State.setZN_bit (s : State) (r : Byte) (j : Nat) (hj : j < 8) :
    (s.setZN r).p.getLsbD j =
      if j = 7 then negativeOf r else if j = 1 then zeroOf r else s.p.getLsbD j := by
  rw [State.setZN_p, getLsbD_putBit _ _ _ (by omega) _ hj, getLsbD_putBit _ _ _ (by omega) _ hj]
  by_cases h7 : j = 7
  · subst h7; simp
  · by_cases h1 : j = 1
    · subst h1; simp
    · simp only [h7, h1, if_false]
      rw [if_neg (by omega), if_neg (by omega)]

/-- A result that is zero has bit 7 clear. -/
theorem zero_not_negative (r : Byte) (h : zeroOf r = true) : negativeOf r = false := by
  have : r = 0#8 := by simpa [zeroOf] using h
  subst this; rfl

/-- Two writes of different bits of a status byte commute. -/
theorem putBit_comm (p : Byte) (i j : Nat) (b c : Bool) (h : i ≠ j) (hi : i < 8) (hj : j < 8) :
    putBit (putBit p i b) j c = putBit (putBit p j c) i b := by
  apply BitVec.eq_of_getLsbD_eq
  intro k hk
  rw [getLsbD_putBit _ _ _ hj _ hk, getLsbD_putBit _ _ _ hi _ hk, getLsbD_putBit _ _ _ hi _ hk,
    getLsbD_putBit _ _ _ hj _ hk]
  by_cases h1 : i = k
  · subst h1; simp [Ne.symm h]
  · simp [h1]

/-- The last write of a bit of a status byte is the one that counts. -/
theorem putBit_putBit (p : Byte) (i : Nat) (b c : Bool) (hi : i < 8) :
    putBit (putBit p i b) i c = putBit p i c := by
  apply BitVec.eq_of_getLsbD_eq
  intro k hk
  rw [getLsbD_putBit _ _ _ hi _ hk, getLsbD_putBit _ _ _ hi _ hk, getLsbD_putBit _ _ _ hi _ hk]
  by_cases h1 : i = k <;> simp [h1]

@[simp] theorem State.flag_completeOk (s : State) (r : Row) (f : Flag) : (s.completeOk r).flag f = s.flag f := rfl

@[simp] theorem State.flag_setZN_z (s : State) (r : Byte) : (s.setZN r).flag .z = (r == 0#8) := by
  rw [State.flag_eq, State.setZN_bit _ _ _ (by decide)]; simp [Flag.bit, zeroOf]

@[simp] theorem State.flag_setZN_n (s : State) (r : Byte) : (s.setZN r).flag .n = r.getLsbD 7 := by
  rw [State.flag_eq, State.setZN_bit _ _ _ (by decide)]; simp [Flag.bit, negativeOf]

@[simp] theorem State.flag_setZN_c (s : State) (r : Byte) : (s.setZN r).flag .c = s.flag .c := by
  rw [State.flag_eq, State.setZN_bit _ _ _ (by decide)]; simp [Flag.bit, State.flag_eq]

end Sys2Proof.Machine
end

