-- ==== Sys2Proof/Laws/Memory.lean ====
section
/-! SUPPORT. Laws of the canonical memory: read after write, every operation keeps the canonical form and the bound,
and canonical memories with equal reads are equal data. -/

namespace Sys2Proof.Machine

@[simp] theorem Memory.get_nil (i : Nat) : Memory.get [] i = Memory.unlisted := rfl

theorem Memory.get_cons (k : Nat) (v : Byte) (rest : Memory) (i : Nat) :
    Memory.get ((k, v) :: rest) i = if k = i then v else Memory.get rest i := rfl

theorem Memory.get_erase (m : Memory) (i j : Nat) :
    (Memory.erase m i).get j = if i = j then Memory.unlisted else m.get j := by
  induction m with
  | nil => simp [Memory.erase]
  | cons c rest ih =>
    obtain ⟨k, v⟩ := c
    simp only [Memory.erase]
    split
    · next hk =>
      rw [ih, Memory.get_cons]; subst hk
      split <;> rfl
    · next hk =>
      rw [Memory.get_cons, Memory.get_cons, ih]
      split
      · next hkj => rw [if_neg (fun h => hk (hkj.trans h.symm))]
      · rfl

theorem Memory.get_insert (m : Memory) (i : Nat) (b : Byte) (j : Nat)
    (fresh : ∀ c ∈ m, c.1 ≠ i) : (Memory.insert m i b).get j = if i = j then b else m.get j := by
  induction m with
  | nil => rfl
  | cons c rest ih =>
    obtain ⟨k, v⟩ := c
    have hk : k ≠ i := fresh (k, v) (by simp)
    have ih := ih (fun c hc => fresh c (by simp [hc]))
    simp only [Memory.insert]
    split
    · rw [Memory.get_cons]
    · rw [Memory.get_cons, Memory.get_cons, ih]
      split
      · next hkj => rw [if_neg (fun h => hk (hkj.trans h.symm))]
      · rfl

theorem Memory.mem_erase (m : Memory) (i : Nat) (c : Host.Cell) :
    c ∈ Memory.erase m i ↔ c ∈ m ∧ c.1 ≠ i := by
  induction m with
  | nil => simp [Memory.erase]
  | cons d rest ih =>
    obtain ⟨k, v⟩ := d
    by_cases hk : k = i
    · simp only [Memory.erase, hk, if_true, ih, List.mem_cons]
      constructor
      · rintro ⟨h, hne⟩; exact ⟨.inr h, hne⟩
      · rintro ⟨rfl | h, hne⟩
        · exact absurd rfl hne
        · exact ⟨h, hne⟩
    · simp only [Memory.erase, hk, if_false, List.mem_cons, ih]
      constructor
      · rintro (rfl | ⟨h, hne⟩)
        · exact ⟨.inl rfl, hk⟩
        · exact ⟨.inr h, hne⟩
      · rintro ⟨rfl | h, hne⟩
        · exact .inl rfl
        · exact .inr ⟨h, hne⟩

/-- Read after write, at the written index and at every other one. -/
theorem Memory.get_set (m : Memory) (i : Nat) (b : Byte) (j : Nat) :
    (m.set i b).get j = if i = j then b else m.get j := by
  unfold Memory.set
  by_cases hb : b = Memory.unlisted
  · simp only [hb, if_true, Memory.get_erase]
  · simp only [hb, if_false]
    rw [Memory.get_insert _ _ _ _ (fun c hc => ((Memory.mem_erase m i c).1 hc).2)]
    by_cases hj : i = j <;> simp [hj, Memory.get_erase]

theorem Memory.wfFrom_mono {lo lo' : Nat} (h : lo' ≤ lo) {m : Memory} (hm : Memory.wfFrom lo m = true) :
    Memory.wfFrom lo' m = true := by
  cases m with
  | nil => rfl
  | cons c rest =>
    obtain ⟨k, v⟩ := c
    simp only [Memory.wfFrom, Bool.and_eq_true, decide_eq_true_eq] at hm ⊢
    exact ⟨⟨by omega, hm.1.2⟩, hm.2⟩

theorem Memory.wfFrom_erase (i : Nat) (m : Memory) (lo : Nat) (hm : Memory.wfFrom lo m = true) :
    Memory.wfFrom lo (Memory.erase m i) = true := by
  induction m generalizing lo with
  | nil => rfl
  | cons c rest ih =>
    obtain ⟨k, v⟩ := c
    simp only [Memory.wfFrom, Bool.and_eq_true, decide_eq_true_eq] at hm
    have hr := ih (k + 1) hm.2
    by_cases hk : k = i
    · simp only [Memory.erase, hk, if_true]
      exact Memory.wfFrom_mono (by omega) (hk ▸ hr)
    · simp only [Memory.erase, hk, if_false, Memory.wfFrom, Bool.and_eq_true, decide_eq_true_eq]
      exact ⟨hm.1, hr⟩

theorem Memory.wfFrom_insert (i : Nat) (b : Byte) (hb : b ≠ Memory.unlisted) (m : Memory) (lo : Nat)
    (hlo : lo ≤ i) (hm : Memory.wfFrom lo m = true) (fresh : ∀ c ∈ m, c.1 ≠ i) :
    Memory.wfFrom lo (Memory.insert m i b) = true := by
  induction m generalizing lo with
  | nil => simp [Memory.insert, Memory.wfFrom, hlo, hb]
  | cons c rest ih =>
    obtain ⟨k, v⟩ := c
    have hk : k ≠ i := fresh (k, v) (by simp)
    simp only [Memory.wfFrom, Bool.and_eq_true, decide_eq_true_eq] at hm
    by_cases hlt : i < k
    · simp only [Memory.insert, hlt, if_true, Memory.wfFrom, Bool.and_eq_true, decide_eq_true_eq]
      exact ⟨⟨hlo, by simpa using hb⟩, ⟨by omega, hm.1.2⟩, hm.2⟩
    · simp only [Memory.insert, hlt, if_false, Memory.wfFrom, Bool.and_eq_true, decide_eq_true_eq]
      exact ⟨hm.1, ih (k + 1) (by omega) hm.2 (fun c hc => fresh c (by simp [hc]))⟩

/-- A write keeps the canonical form. -/
theorem Memory.wf_set (m : Memory) (i : Nat) (b : Byte) (hm : m.wf = true) : (m.set i b).wf = true := by
  unfold Memory.set
  by_cases hb : b = Memory.unlisted
  · simp only [hb, if_true]; exact Memory.wfFrom_erase i m 0 hm
  · simp only [hb, if_false]
    exact Memory.wfFrom_insert i b hb _ 0 (by omega) (Memory.wfFrom_erase i m 0 hm)
      (fun c hc => ((Memory.mem_erase m i c).1 hc).2)

theorem Memory.mem_insert (m : Memory) (i : Nat) (b : Byte) (c : Host.Cell) :
    c ∈ Memory.insert m i b → c = (i, b) ∨ c ∈ m := by
  induction m with
  | nil => simp [Memory.insert]
  | cons d rest ih =>
    obtain ⟨k, v⟩ := d
    by_cases hlt : i < k
    · simp [Memory.insert, hlt]
    · simp only [Memory.insert, hlt, if_false, List.mem_cons]
      rintro (rfl | h)
      · exact .inr (.inl rfl)
      · rcases ih h with h | h
        · exact .inl h
        · exact .inr (.inr h)

/-- A write below a size keeps every listed index below it. -/
theorem Memory.below_set (n : Nat) (m : Memory) (i : Nat) (b : Byte) (hm : Memory.below n m = true) (hi : i < n) :
    Memory.below n (m.set i b) = true := by
  simp only [Memory.below, List.all_eq_true, decide_eq_true_eq] at hm ⊢
  intro c hc
  unfold Memory.set at hc
  by_cases hb : b = Memory.unlisted
  · simp only [hb, if_true] at hc
    exact hm c ((Memory.mem_erase m i c).1 hc).1
  · simp only [hb, if_false] at hc
    rcases Memory.mem_insert _ _ _ _ hc with rfl | h
    · exact hi
    · exact hm c ((Memory.mem_erase m i c).1 h).1

theorem Memory.get_of_wfFrom_lt {lo : Nat} {m : Memory} (hm : Memory.wfFrom lo m = true) {i : Nat} (hi : i < lo) :
    m.get i = Memory.unlisted := by
  induction m generalizing lo with
  | nil => rfl
  | cons c rest ih =>
    obtain ⟨k, v⟩ := c
    simp only [Memory.wfFrom, Bool.and_eq_true, decide_eq_true_eq] at hm
    have hk : k ≠ i := by omega
    simp only [Memory.get, hk, if_false]
    exact ih hm.2 (by omega)

theorem Memory.ext_from (lo : Nat) (m m' : Memory) (hm : Memory.wfFrom lo m = true) (hm' : Memory.wfFrom lo m' = true)
    (h : ∀ i, m.get i = m'.get i) : m = m' := by
  induction m generalizing lo m' with
  | nil =>
    cases m' with
    | nil => rfl
    | cons c rest =>
      obtain ⟨k, v⟩ := c
      simp only [Memory.wfFrom, Bool.and_eq_true, bne_iff_ne] at hm'
      have := h k
      simp [Memory.get] at this
      exact absurd this.symm hm'.1.2
  | cons c rest ih =>
    obtain ⟨k, v⟩ := c
    have hmk := hm
    simp only [Memory.wfFrom, Bool.and_eq_true, bne_iff_ne, decide_eq_true_eq] at hm
    cases m' with
    | nil =>
      have := h k
      simp [Memory.get] at this
      exact absurd this hm.1.2
    | cons c' rest' =>
      obtain ⟨k', v'⟩ := c'
      have hmk' := hm'
      simp only [Memory.wfFrom, Bool.and_eq_true, bne_iff_ne, decide_eq_true_eq] at hm'
      have hkk : k = k' := by
        rcases Nat.lt_trichotomy k k' with hlt | heq | hgt
        · have h1 := h k
          have hne : k' ≠ k := by omega
          simp only [Memory.get, if_true, hne, if_false] at h1
          rw [Memory.get_of_wfFrom_lt hm'.2 (by omega)] at h1
          exact absurd h1 hm.1.2
        · exact heq
        · have h1 := h k'
          have hne : k ≠ k' := by omega
          simp only [Memory.get, if_true, hne, if_false] at h1
          rw [Memory.get_of_wfFrom_lt hm.2 (by omega)] at h1
          exact absurd h1.symm hm'.1.2
      subst hkk
      have hv : v = v' := by simpa [Memory.get] using h k
      subst hv
      have : rest = rest' := by
        refine ih (k + 1) rest' hm.2 hm'.2 (fun i => ?_)
        by_cases hi : k = i
        · subst hi
          rw [Memory.get_of_wfFrom_lt hm.2 (by omega), Memory.get_of_wfFrom_lt hm'.2 (by omega)]
        · simpa [Memory.get, hi] using h i
      rw [this]

/-- Canonical memories with equal reads are equal data. -/
theorem Memory.ext (m m' : Memory) (hm : m.wf = true) (hm' : m'.wf = true) (h : ∀ i, m.get i = m'.get i) : m = m' :=
  Memory.ext_from 0 m m' hm hm' h

theorem Memory.wfFrom_ofBytesFrom (bs : List Byte) (i : Nat) : Memory.wfFrom i (Memory.ofBytesFrom i bs) = true := by
  induction bs generalizing i with
  | nil => rfl
  | cons b rest ih =>
    by_cases hb : b = Memory.unlisted
    · simp only [Memory.ofBytesFrom, hb, if_true]
      exact Memory.wfFrom_mono (by omega) (ih (i + 1))
    · simp [Memory.ofBytesFrom, hb, Memory.wfFrom, ih (i + 1)]

/-- A memory built from bytes is canonical. -/
theorem Memory.wf_ofBytes (bs : List Byte) : (Memory.ofBytes bs).wf = true := Memory.wfFrom_ofBytesFrom bs 0

theorem Memory.get_ofBytesFrom (bs : List Byte) (i j : Nat) :
    (Memory.ofBytesFrom i bs).get (i + j) = bs.getD j Memory.unlisted := by
  induction bs generalizing i j with
  | nil => simp [Memory.ofBytesFrom]
  | cons b rest ih =>
    cases j with
    | zero =>
      by_cases hb : b = Memory.unlisted
      · simp only [Memory.ofBytesFrom, hb, if_true, Nat.add_zero]
        rw [Memory.get_of_wfFrom_lt (Memory.wfFrom_ofBytesFrom rest (i + 1)) (by omega)]
        rfl
      · simp [Memory.ofBytesFrom, hb, Memory.get]
    | succ j =>
      have h : i + (j + 1) = i + 1 + j := by omega
      by_cases hb : b = Memory.unlisted
      · simp only [Memory.ofBytesFrom, hb, if_true, h, ih]; rfl
      · have hne : i ≠ i + 1 + j := by omega
        simp only [Memory.ofBytesFrom, hb, if_false, Memory.get, h, hne, ih]; rfl

/-- A memory built from bytes reads as them, and as `unlisted` past their end. -/
theorem Memory.get_ofBytes (bs : List Byte) (j : Nat) : (Memory.ofBytes bs).get j = bs.getD j Memory.unlisted := by
  have := Memory.get_ofBytesFrom bs 0 j
  simpa [Memory.ofBytes] using this

theorem Memory.mem_ofBytesFrom (bs : List Byte) (i : Nat) (c : Host.Cell) (h : c ∈ Memory.ofBytesFrom i bs) :
    c.1 < i + bs.length := by
  induction bs generalizing i with
  | nil => simp [Memory.ofBytesFrom] at h
  | cons b rest ih =>
    by_cases hb : b = Memory.unlisted
    · simp only [Memory.ofBytesFrom, hb, if_true] at h
      have := ih (i + 1) h; simp; omega
    · simp only [Memory.ofBytesFrom, hb, if_false, List.mem_cons] at h
      rcases h with rfl | h
      · simp
      · have := ih (i + 1) h; simp; omega

/-- A memory built from bytes lies below their number. -/
theorem Memory.below_ofBytes (bs : List Byte) : Memory.below bs.length (Memory.ofBytes bs) = true := by
  simp only [Memory.below, List.all_eq_true, decide_eq_true_eq]
  intro c hc
  simpa using Memory.mem_ofBytesFrom bs 0 c hc

/-- Bytes that all read as `unlisted` list nothing. -/
theorem Memory.ofBytesFrom_replicate (n i : Nat) :
    Memory.ofBytesFrom i (List.replicate n Memory.unlisted) = [] := by
  induction n generalizing i with
  | zero => rfl
  | succ n ih => simp [List.replicate_succ, Memory.ofBytesFrom, ih]

/-- Placing bytes keeps the canonical form. -/
theorem Memory.wf_setBytes (size : Nat) (bs : List Byte) (m : Memory) (i : Nat) (hm : m.wf = true) :
    (Memory.setBytes size m i bs).wf = true := by
  induction bs generalizing m i with
  | nil => exact hm
  | cons b rest ih =>
    simp only [Memory.setBytes]
    refine ih _ _ ?_
    split
    · exact Memory.wf_set m i b hm
    · exact hm

/-- Placing bytes keeps every listed index below the size. -/
theorem Memory.below_setBytes (size : Nat) (bs : List Byte) (m : Memory) (i : Nat)
    (hm : Memory.below size m = true) : Memory.below size (Memory.setBytes size m i bs) = true := by
  induction bs generalizing m i with
  | nil => exact hm
  | cons b rest ih =>
    simp only [Memory.setBytes]
    refine ih _ _ ?_
    split
    · next h => exact Memory.below_set size m i b hm h
    · exact hm

/-- Placed bytes that fit are what is read there; every other index reads as before. -/
theorem Memory.get_setBytes (size : Nat) (bs : List Byte) (m : Memory) (i j : Nat) (fit : i + bs.length ≤ size) :
    (Memory.setBytes size m i bs).get j =
      if i ≤ j ∧ j < i + bs.length then bs.getD (j - i) Memory.unlisted else m.get j := by
  induction bs generalizing m i with
  | nil =>
    have : ¬ (i ≤ j ∧ j < i + ([] : List Byte).length) := by simp
    rw [if_neg this]; rfl
  | cons b rest ih =>
    simp only [List.length_cons] at fit
    have hi : i < size := by omega
    simp only [Memory.setBytes, hi, if_true]
    rw [ih (m.set i b) (i + 1) (by omega), Memory.get_set]
    by_cases h1 : i = j
    · subst h1; simp
    · by_cases h2 : i + 1 ≤ j ∧ j < i + 1 + rest.length
      · have h3 : i ≤ j ∧ j < i + (b :: rest).length := by simp; omega
        have h4 : j - i = (j - (i + 1)) + 1 := by omega
        rw [if_pos h2, if_pos h3, h4]; rfl
      · have h3 : ¬ (i ≤ j ∧ j < i + (b :: rest).length) := by simp only [List.length_cons]; omega
        rw [if_neg h2, if_neg h3, if_neg h1]

/-- Past a bound of its indices a memory reads as `unlisted`. -/
theorem Memory.get_of_below {n : Nat} {m : Memory} (h : Memory.below n m = true) {i : Nat} (hi : n ≤ i) :
    m.get i = Memory.unlisted := by
  induction m with
  | nil => rfl
  | cons c rest ih =>
    obtain ⟨k, v⟩ := c
    simp only [Memory.below, List.all_cons, Bool.and_eq_true, decide_eq_true_eq] at h
    rw [Memory.get_cons, if_neg (by omega)]
    exact ih h.2

end Sys2Proof.Machine
end

