-- ==== Sys2Proof/Laws/Ops.lean ====
section
/-! SUPPORT. Laws of the bus, of the operands and of placing an instruction: each operation's whole effect, once. -/

namespace Sys2Proof.Machine

theorem regionOf_ram {a : Word} (h : a.toNat ≤ 0x1FFF) : regionOf a = .ram := by simp [regionOf, h]

theorem regionOf_rom {a : Word} (h : 0x8000 ≤ a.toNat) : regionOf a = .rom := by
  unfold regionOf
  rw [if_neg (by omega), if_neg (by omega), if_neg (by omega)]

theorem regionOf_gap {a : Word} (h1 : 0x2000 ≤ a.toNat) (h2 : a.toNat ≤ 0x7FFF) :
    regionOf a = .peripheral ∨ regionOf a = .expansion := by
  have h0 : ¬ a.toNat ≤ 0x1FFF := by omega
  by_cases h3 : a.toNat ≤ 0x401F
  · exact .inl (by simp [regionOf, h0, h3])
  · exact .inr (by simp [regionOf, h0, h3, h2])

/-- What a bus read answers, for every address (R34, R35). -/
theorem State.memRead_eq (s : State) (a : Word) :
    s.memRead a = if a.toNat ≤ 0x1FFF then .ok (s.ramByte (a.toNat % 0x0800))
      else if 0x8000 ≤ a.toNat then .ok (s.romByte (romIndex s.prgLen a))
      else .error (.unmappedAddress a) := by
  unfold State.memRead
  by_cases h1 : a.toNat ≤ 0x1FFF
  · rw [regionOf_ram h1, if_pos h1]; rfl
  · rw [if_neg h1]
    by_cases h2 : 0x8000 ≤ a.toNat
    · rw [regionOf_rom h2, if_pos h2]
    · rw [if_neg h2]
      rcases regionOf_gap (a := a) (by omega) (by omega) with h | h <;> rw [h]

/-- What a bus write answers, for every address (R36, R37, R38). -/
theorem State.memWrite_eq (s : State) (a : Word) (v : Byte) :
    s.memWrite a v = if a.toNat ≤ 0x1FFF then .ok (s.putRam (a.toNat % 0x0800) v)
      else if 0x8000 ≤ a.toNat then .error (.readOnlyViolation a)
      else .error (.unmappedAddress a) := by
  unfold State.memWrite
  by_cases h1 : a.toNat ≤ 0x1FFF
  · rw [regionOf_ram h1, if_pos h1]; rfl
  · rw [if_neg h1]
    by_cases h2 : 0x8000 ≤ a.toNat
    · rw [regionOf_rom h2, if_pos h2]
    · rw [if_neg h2]
      rcases regionOf_gap (a := a) (by omega) (by omega) with h | h <;> rw [h]

/-- A write that completes stored one RAM byte and changed nothing else (R36). -/
theorem State.memWrite_ok {s t : State} {a : Word} {v : Byte} (h : s.memWrite a v = .ok t) :
    a.toNat ≤ 0x1FFF ∧ t = s.putRam (a.toNat % 0x0800) v := by
  rw [State.memWrite_eq] at h
  split at h
  · next h1 => exact ⟨h1, by cases h; rfl⟩
  · split at h <;> cases h

/-- A zero-page indexed address lies in the zero page (R72). -/
theorem eaZpx_toNat (short x : Byte) : (eaZpx short x).toNat = (short.toNat + x.toNat) % 256 := by
  unfold eaZpx
  rw [BitVec.toNat_setWidth, BitVec.toNat_add]
  omega

theorem eaZpx_lt (short x : Byte) : (eaZpx short x).toNat < 256 := by rw [eaZpx_toNat]; omega

/-- The ROM index is the address itself in a 32 KiB image, and wraps once in a 16 KiB image (R33). -/
theorem romIndex_eq (len : PrgLen) (a : Word) :
    romIndex len a = match len with
      | .kib16 => (a.toNat - 0x8000) % 16384
      | .kib32 => a.toNat - 0x8000 := by
  cases len <;> simp [romIndex, PrgLen.bytes]

/-- The ROM index of an address in the window lies in the image (R33, R43). -/
theorem romIndex_lt (len : PrgLen) (a : Word) : romIndex len a < len.bytes := by
  have := a.isLt
  cases len <;> simp [romIndex, PrgLen.bytes] <;> omega

theorem PrgLen.bytes_le (len : PrgLen) : len.bytes ≤ 32768 := by cases len <;> decide

theorem PrgLen.bytes_ge (len : PrgLen) : 16384 ≤ len.bytes := by cases len <;> decide

/-- Placing bytes at the fetch changes nothing but PRG_ROM and, where they do not fit at `pc`, `pc`. -/
theorem State.placeAtFetch_frame (s : State) (bs : List Byte) :
    (s.placeAtFetch bs).sp = s.sp ∧ (s.placeAtFetch bs).a = s.a ∧ (s.placeAtFetch bs).x = s.x ∧
    (s.placeAtFetch bs).y = s.y ∧ (s.placeAtFetch bs).p = s.p ∧ (s.placeAtFetch bs).ram = s.ram ∧
    (s.placeAtFetch bs).prgLen = s.prgLen ∧ (s.placeAtFetch bs).mapperId = s.mapperId ∧
    (s.placeAtFetch bs).out = s.out := by
  unfold State.placeAtFetch
  split <;> exact ⟨rfl, rfl, rfl, rfl, rfl, rfl, rfl, rfl, rfl⟩

/-- Bytes placed in a stream where they fit are read there (R62). -/
theorem read_setBytes (size : Nat) (m : Memory) (i j : Nat) (bs : List Byte) (fit : i + bs.length ≤ size)
    (hj : j < bs.length) :
    Stream.read ⟨size, Memory.setBytes size m i bs⟩ (i + j) = some (bs.getD j Memory.unlisted) := by
  have h : i + j < size := by omega
  have hin : i ≤ i + j ∧ i + j < i + bs.length := by omega
  simp only [Stream.read, h, if_true]
  rw [Memory.get_setBytes _ _ _ _ _ fit, if_pos hin, Nat.add_sub_cancel_left]

/-- After placing bytes at the fetch, the stream reads them from the cursor on, inside the image. -/
theorem State.placeAtFetch_read (s : State) (bs : List Byte) (fit : bs.length ≤ 16384) (j : Nat) (hj : j < bs.length) :
    (s.placeAtFetch bs).stream.read ((s.placeAtFetch bs).cursor + j) = some (bs.getD j Memory.unlisted) ∧
    (s.placeAtFetch bs).cursor + bs.length ≤ (s.placeAtFetch bs).stream.len := by
  have hge := PrgLen.bytes_ge s.prgLen
  unfold State.placeAtFetch
  split
  · next h => exact ⟨read_setBytes _ _ _ _ _ h hj, h⟩
  · have h : 0 + bs.length ≤ s.prgLen.bytes := by omega
    exact ⟨read_setBytes _ _ 0 _ _ h hj, h⟩

theorem State.ramByte_putRam (s : State) (i : Nat) (v : Byte) (j : Nat) :
    (s.putRam i v).ramByte j = if j = i then v else s.ramByte j := by
  simp only [State.ramByte, State.putRam_ram, Memory.get_set, eq_comm]

/-- Every bus address after one RAM byte was replaced: the byte through its mirror addresses, the rest as before
(R36, R44). -/
theorem State.memRead_putRam (s : State) (i : Nat) (v : Byte) (a : Word) :
    (s.putRam i v).memRead a =
      if a.toNat ≤ 0x1FFF ∧ a.toNat % 0x0800 = i then .ok v else s.memRead a := by
  rw [State.memRead_eq, State.memRead_eq]
  by_cases h1 : a.toNat ≤ 0x1FFF
  · simp only [h1, if_true, State.ramByte_putRam, true_and]
    split <;> rfl
  · simp only [h1, if_false, false_and]; rfl

/-- A read of the ROM window (R33, R34). -/
theorem State.memRead_rom (s : State) (n : Nat) (h1 : 0x8000 ≤ n) (h2 : n < 65536) :
    s.memRead (BitVec.ofNat 16 n) = .ok (s.romByte (romIndex s.prgLen (BitVec.ofNat 16 n))) := by
  have e : (BitVec.ofNat 16 n).toNat = n := by rw [BitVec.toNat_ofNat]; omega
  rw [State.memRead_eq, if_neg (by rw [e]; omega), if_pos (by rw [e]; omega)]

end Sys2Proof.Machine
end

