-- ==== Sys2Proof/Laws/Exec.lean ====
section
/-! SUPPORT. What each meaning answers, once: all three always complete. -/

namespace Sys2Proof.Machine

theorem exec_andImm_eq (imm : Byte) (s : State) :
    exec (.andImm imm) s =
      .next (((s.setReg .a (s.a &&& imm)).setZN (s.a &&& imm)).completeOk rowAnd) := rfl

theorem exec_brk_eq (s : State) : exec .brk s = .next (s.completeBreak rowBrk) := rfl

/-- A zero-page indexed access is a RAM access of the very index (R72, R100). -/
theorem State.memRead_eaZpx (s : State) (base x : Byte) :
    s.memRead (eaZpx base x) = .ok (s.ramByte (eaZpx base x).toNat) := by
  have h := eaZpx_lt base x
  rw [State.memRead_eq, if_pos (by omega), Nat.mod_eq_of_lt (by omega)]

theorem State.memWrite_eaZpx (s : State) (base x v : Byte) :
    s.memWrite (eaZpx base x) v = .ok (s.putRam (eaZpx base x).toNat v) := by
  have h := eaZpx_lt base x
  rw [State.memWrite_eq, if_pos (by omega), Nat.mod_eq_of_lt (by omega)]

/-- ASL zp,X always completes: neither bus error can occur (R87, R100). -/
theorem exec_aslZpx_eq (base : Byte) (s : State) :
    exec (.aslZpx base) s =
      .next ((((s.putRam (eaZpx base s.x).toNat (shiftLeftOne (s.ramByte (eaZpx base s.x).toNat))).setFlag .c
        (shiftCarryOf (s.ramByte (eaZpx base s.x).toNat))).setZN
        (shiftLeftOne (s.ramByte (eaZpx base s.x).toNat))).completeOk rowAsl) := by
  simp only [exec, execAslZpx, State.reg_x, State.memRead_eaZpx, State.memWrite_eaZpx]

/-- Every instruction completes in every state. -/
theorem exec_next (i : Instr) (s : State) : ∃ t, exec i s = .next t := by
  cases i with
  | brk => exact ⟨_, exec_brk_eq s⟩
  | aslZpx base => exact ⟨_, exec_aslZpx_eq base s⟩
  | andImm imm => exact ⟨_, exec_andImm_eq imm s⟩

/-- What no instruction changes (R25): SP, X, Y, and what the block holds for the session. -/
theorem exec_common_frame {i : Instr} {s t : State} (h : exec i s = .next t) :
    t.sp = s.sp ∧ t.x = s.x ∧ t.y = s.y ∧ t.prgRom = s.prgRom ∧ t.prgLen = s.prgLen ∧ t.mapperId = s.mapperId := by
  cases i with
  | brk => cases (exec_brk_eq s).symm.trans h; exact ⟨rfl, rfl, rfl, rfl, rfl, rfl⟩
  | aslZpx base => cases (exec_aslZpx_eq base s).symm.trans h; exact ⟨rfl, rfl, rfl, rfl, rfl, rfl⟩
  | andImm imm => cases (exec_andImm_eq imm s).symm.trans h; exact ⟨rfl, rfl, rfl, rfl, rfl, rfl⟩

/-- Where every instruction leaves `pc` and what it returns (R83, R84). -/
theorem exec_pc_out {i : Instr} {s t : State} (h : exec i s = .next t) :
    t.pc = s.pc + BitVec.ofNat 16 i.toInsn.bytes ∧
    t.out = match i with
      | .brk => some (.brk 7)
      | .aslZpx _ => some (.ok 6)
      | .andImm _ => some (.ok 2) := by
  cases i with
  | brk => cases (exec_brk_eq s).symm.trans h; exact ⟨rfl, rfl⟩
  | aslZpx base => cases (exec_aslZpx_eq base s).symm.trans h; exact ⟨rfl, rfl⟩
  | andImm imm => cases (exec_andImm_eq imm s).symm.trans h; exact ⟨rfl, rfl⟩

/-- What every instruction leaves in RAM: only ASL stores, one byte of the zero page (R25). -/
theorem exec_ram {i : Instr} {s t : State} (h : exec i s = .next t) :
    t.ram = s.ram ∨ ∃ j v, j < 256 ∧ t.ram = s.ram.set j v := by
  cases i with
  | brk => cases (exec_brk_eq s).symm.trans h; exact .inl rfl
  | aslZpx base => cases (exec_aslZpx_eq base s).symm.trans h; exact .inr ⟨_, _, eaZpx_lt _ _, rfl⟩
  | andImm imm => cases (exec_andImm_eq imm s).symm.trans h; exact .inl rfl

theorem shiftLeftOne_eq (b : Byte) : shiftLeftOne b = BitVec.ofNat 8 (2 * b.toNat) := by
  apply BitVec.eq_of_toNat_eq
  simp [shiftLeftOne, BitVec.toNat_shiftLeft, Nat.shiftLeft_eq]; omega

theorem shiftLeftOne_bit7 (b : Byte) : (shiftLeftOne b).getLsbD 7 = b.getLsbD 6 := by simp [shiftLeftOne]

theorem shiftLeftOne_bit0 (b : Byte) : (shiftLeftOne b).getLsbD 0 = false := by simp [shiftLeftOne]

/-- Every bus address after ASL: the shifted byte at the effective address and its mirrors, the rest as before (R100). -/
theorem exec_aslZpx_read {base : Byte} {s t : State} (h : exec (.aslZpx base) s = .next t) (a : Word) :
    t.memRead a = if a.toNat ≤ 0x1FFF ∧ a.toNat % 0x0800 = (eaZpx base s.x).toNat
      then .ok (shiftLeftOne (s.ramByte (eaZpx base s.x).toNat)) else s.memRead a := by
  cases (exec_aslZpx_eq base s).symm.trans h
  rw [← State.memRead_putRam]; rfl

/-- The status bits after ASL: C, Z, N, and the rest as before (R94, R100). -/
theorem exec_aslZpx_bit {base : Byte} {s t : State} (h : exec (.aslZpx base) s = .next t) (j : Nat) (hj : j < 8) :
    t.p.getLsbD j =
      if j = 7 then negativeOf (shiftLeftOne (s.ramByte (eaZpx base s.x).toNat))
      else if j = 1 then zeroOf (shiftLeftOne (s.ramByte (eaZpx base s.x).toNat))
      else if j = 0 then shiftCarryOf (s.ramByte (eaZpx base s.x).toNat)
      else s.p.getLsbD j := by
  cases (exec_aslZpx_eq base s).symm.trans h
  rw [State.completeOk_p, State.setZN_bit _ _ _ hj, State.setFlag_p, getLsbD_putBit _ _ _ (by decide) _ hj]
  by_cases h0 : j = 0
  · subst h0; rfl
  · simp only [Flag.bit, h0, Ne.symm h0, if_false]; rfl

/-- The status bits after AND: Z, N, and the rest as before (R94, R95). -/
theorem exec_andImm_bit {imm : Byte} {s t : State} (h : exec (.andImm imm) s = .next t) (j : Nat) (hj : j < 8) :
    t.p.getLsbD j =
      if j = 7 then negativeOf (s.a &&& imm) else if j = 1 then zeroOf (s.a &&& imm) else s.p.getLsbD j := by
  cases (exec_andImm_eq imm s).symm.trans h
  rw [State.completeOk_p, State.setZN_bit _ _ _ hj]; rfl

end Sys2Proof.Machine
end

