-- ==== Sys2Proof/Laws/PerInstr.lean ====
section
/-! SUPPORT. Statements made per instruction: one lemma per constructor of Instr. -/

namespace Sys2Proof.Laws

/-- An instruction's encoding is as long as its table row says, starts with a byte that selects a row of its own tag,
and its Instruction value meets its clause's requirement (R66, R71, R89). -/
def EncodingFitsRow.Statement (i : Instr) : Prop :=
  (encode i).length = i.toInsn.bytes ∧
  ((encode i).head?.bind (OpcodeTable.row opcodeTable)).map Row.tag = some i.toInsn.opCode ∧
  i.toInsn.wellFormed opcodeTable = true

theorem EncodingFitsRow.brk : EncodingFitsRow.Statement .brk := ⟨rfl, rfl, Instr.toInsn_wellFormed _⟩

theorem EncodingFitsRow.aslZpx (base : Byte) : EncodingFitsRow.Statement (.aslZpx base) :=
  ⟨rfl, rfl, Instr.toInsn_wellFormed _⟩

theorem EncodingFitsRow.andImm (imm : Byte) : EncodingFitsRow.Statement (.andImm imm) :=
  ⟨rfl, rfl, Instr.toInsn_wellFormed _⟩

end Sys2Proof.Laws
end

