-- ==== Sys2Proof/Laws/Step.lean ====
section
/-! SUPPORT. Everything a step can do, once: it runs the decoded instruction, or it ends with one of the decoder's two
errors; it never refuses. -/

namespace Sys2Proof.Machine

theorem stepInsn_toInsn (i : Instr) (s : State) : stepInsn i.toInsn s = exec i s := by
  cases i <;> simp only [stepInsn, Instr.toInsn, rowBrk, rowAsl, rowAnd, runClause] <;> rfl

theorem step_of_fetch {s : State} {i : Instr} (h : s.fetch = .ok i.toInsn) : step s = exec i s := by
  unfold step cycle
  rw [h]; exact stepInsn_toInsn i s

theorem step_of_error {s : State} {e : DecodeError} (h : s.fetch = .error e) : step s = .fault (Fault.ofDecode e) := by
  unfold step cycle
  rw [h]

/-- A step either runs the instruction at `pc` to its next state or surfaces a decode error. -/
theorem step_total (s : State) :
    (∃ i t, s.fetch = .ok i.toInsn ∧ exec i s = .next t ∧ step s = .next t) ∨
    (∃ e, s.fetch = .error e ∧ step s = .fault (Fault.ofDecode e)) := by
  cases h : s.fetch with
  | error e => exact .inr ⟨e, rfl, step_of_error h⟩
  | ok n =>
    obtain ⟨i, rfl⟩ := decode_ok_toInsn h
    obtain ⟨t, ht⟩ := exec_next i s
    exact .inl ⟨i, t, rfl, ht, (step_of_fetch h).trans ht⟩

/-- A step that answers a next state ran the instruction decoded at `pc`. -/
theorem step_next {s t : State} (h : step s = .next t) : ∃ i, s.fetch = .ok i.toInsn ∧ exec i s = .next t := by
  rcases step_total s with ⟨i, u, hf, he, hs⟩ | ⟨e, _, hs⟩
  · cases hs.symm.trans h; exact ⟨i, hf, he⟩
  · cases hs.symm.trans h

/-- A step that faults surfaced a decode error. -/
theorem step_fault {s : State} {f : Fault} (h : step s = .fault f) :
    ∃ e, s.fetch = .error e ∧ f = Fault.ofDecode e := by
  rcases step_total s with ⟨i, u, hf, he, hs⟩ | ⟨e, hf, hs⟩
  · cases hs.symm.trans h
  · cases hs.symm.trans h; exact ⟨e, hf, rfl⟩

/-- The cursor of an accepted instruction lies in the image with all its bytes, so `pc` does not wrap (R11, R68). -/
theorem step_next_pc {s t : State} (h : step s = .next t) :
    ∃ i, s.fetch = .ok i.toInsn ∧ exec i s = .next t ∧ t.pc.toNat = s.pc.toNat + i.toInsn.bytes ∧
      t.pc.toNat ≤ s.prgLen.bytes := by
  obtain ⟨i, hf, he⟩ := step_next h
  have fit : s.pc.toNat + i.toInsn.bytes ≤ s.prgLen.bytes := (decode_ok_fits hf).2
  have hle := PrgLen.bytes_le s.prgLen
  have hpc : t.pc.toNat = s.pc.toNat + i.toInsn.bytes := by
    rw [(exec_pc_out he).1, BitVec.toNat_add, BitVec.toNat_ofNat]; omega
  exact ⟨i, hf, he, hpc, by omega⟩

/-- A step on an Instruction value that answers a next state executed some instruction. -/
theorem stepInsn_next {n : Insn} {s t : State} (h : stepInsn n s = .next t) : ∃ i, exec i s = .next t := by
  unfold stepInsn runClause at h
  cases hc : n.opCode <;> simp only [hc] at h
  case other k => cases h
  all_goals
    cases hn : n.toInstr with
    | none => simp [hn] at h
    | some i => exact ⟨i, by simpa [hn] using h⟩

end Sys2Proof.Machine
end

