-- ==== Sys2Proof/Laws/Session.lean ====
section
/-! SUPPORT. Laws of construction, of the host's session and of the invariant under the shared updates. -/

namespace Sys2Proof.Machine

/-- The two admitted lengths are held as they are (R43). -/
theorem prgLenOf_some {n : Nat} {len : PrgLen} (h : prgLenOf n = some len) : len.bytes = n := by
  unfold prgLenOf at h
  split at h
  · next h1 => cases h; exact h1.symm
  · split at h
    · next h1 => cases h; exact h1.symm
    · cases h

/-- A machine constructed from a buffer of an admitted length meets the invariant (R18, R19, R135). -/
theorem powerOn_inv (par : PowerOn) (rom : List Byte) (len : PrgLen) (h : len.bytes = rom.length) :
    (State.powerOn par (Memory.ofBytes rom) len).Inv where
  ramWf := Memory.wf_ofBytes _
  ramBelow := by
    have := Memory.below_ofBytes par.ramInit.toList
    simpa [State.powerOn, Config.ramSize] using this
  romWf := Memory.wf_ofBytes _
  romBelow := by
    have := Memory.below_ofBytes rom
    rw [← h] at this; exact this
  mapper := rfl

/-- A register write keeps the invariant. -/
theorem State.Inv.setReg {s : State} (hs : s.Inv) (r : Reg) (v : Byte) : (s.setReg r v).Inv := by
  cases r <;> exact ⟨hs.1, hs.2, hs.3, hs.4, hs.5⟩

/-- A RAM write below the RAM's size keeps the invariant. -/
theorem State.Inv.putRam {s : State} (hs : s.Inv) (i : Nat) (v : Byte) (hi : i < Config.ramSize) :
    (s.putRam i v).Inv :=
  ⟨Memory.wf_set _ _ _ hs.1, Memory.below_set _ _ _ _ hs.2 hi, hs.3, hs.4, hs.5⟩

/-- A completed bus write keeps the invariant. -/
theorem State.Inv.memWrite {s t : State} (hs : s.Inv) {a : Word} {v : Byte} (h : s.memWrite a v = .ok t) : t.Inv := by
  obtain ⟨_, rfl⟩ := State.memWrite_ok h
  exact hs.putRam _ v (by unfold Config.ramSize; omega)

/-- Placing bytes at the fetch keeps the invariant. -/
theorem State.Inv.placeAtFetch {s : State} (hs : s.Inv) (bs : List Byte) : (s.placeAtFetch bs).Inv := by
  unfold State.placeAtFetch
  split <;>
    exact ⟨hs.1, hs.2, Memory.wf_setBytes _ _ _ _ hs.3, Memory.below_setBytes _ _ _ _ hs.4, hs.5⟩

/-- The machine of a session after a completed step. -/
@[simp] theorem Session.complete_machine (se : Session) (t : State) : (se.complete t).1.machine = t := by
  unfold Session.complete
  split <;> rfl

/-- Failing records the fault. -/
@[simp] theorem Session.fail_fault (se : Session) (f : Fault) : (se.fail f).1.status.fault = some f := rfl

/-- Failing leaves the machine as it was. -/
@[simp] theorem Session.fail_machine (se : Session) (f : Fault) : (se.fail f).1.machine = se.machine := rfl

/-- Ending a session clears no fault. -/
@[simp] theorem Session.close_fault (se : Session) : se.close.1.status.fault = se.status.fault := rfl

/-- Ending a session leaves the machine as it was. -/
@[simp] theorem Session.close_machine (se : Session) : se.close.1.machine = se.machine := rfl

/-- What a session makes of a step's outcome (R88, R116). -/
theorem Session.ofOutcome_ok {se se' : Session} {o : Host.Outcome State Fault Refusal} {r : Reply}
    (h : se.ofOutcome o = .ok (se', r)) :
    (∃ t, o = .next t ∧ se.complete t = (se', r)) ∨
    (∃ f, o = .fault f ∧ se' = { se with status := .faulted f } ∧ r = .error f) := by
  unfold Session.ofOutcome at h
  cases o with
  | next t => exact .inl ⟨t, rfl, Except.ok.inj h⟩
  | fault f => cases h; exact .inr ⟨f, rfl, rfl, rfl⟩
  | refused r => cases h

/-- A completed step moves the machine there, keeps the status and answers no error (R124). -/
theorem Session.complete_eq {se se' : Session} {t : State} {r : Reply} (h : se.complete t = (se', r)) :
    se'.machine = t ∧ se'.status = se.status ∧ ∀ f, r ≠ .error f := by
  unfold Session.complete at h
  split at h <;> cases h <;> exact ⟨rfl, rfl, nofun⟩

/-- How a completed action on a live session moves the machine (R141): a cycle and a step as some instruction does, a
write as it says, anything else not at all. -/
inductive Session.Moved (s : State) : Action → State → Prop where
  | cycle (i : Instr) (t : State) (h : exec i s = .next t) : Moved s .cycle t
  | stepInsn (n : Insn) (i : Instr) (t : State) (h : exec i s = .next t) : Moved s (.stepInsn n) t
  | decode (c : Nat) : Moved s (.decode c) s
  | busRead (addr : Word) : Moved s (.busRead addr) s
  | busWrite (addr : Word) (v : Byte) (t : State) (h : s.memWrite addr v = .ok t) : Moved s (.busWrite addr v) t
  | readReg (r : Reg) : Moved s (.readReg r) s
  | writeReg (r : Reg) (v : Byte) : Moved s (.writeReg r v) (s.setReg r v)
  | readPc : Moved s .readPc s
  | writePc (v : Word) : Moved s (.writePc v) { s with pc := v }
  | readFlag (f : Flag) : Moved s (.readFlag f) s
  | writeFlag (f : Flag) (b : Bool) : Moved s (.writeFlag f b) (s.setFlag f b)

/-- All that a defined action on a live session can do: end it, record a fault, or go on with the machine moved
(R116, R141). -/
theorem Session.actLive_ok {se se' : Session} {act : Action} {r : Reply} (h : se.actLive act = .ok (se', r)) :
    (act = .endSession ∧ (se', r) = se.close) ∨ (∃ f, (se', r) = se.fail f) ∨
    (se'.status = se.status ∧ (∀ f, r ≠ .error f) ∧ Session.Moved se.machine act se'.machine) := by
  cases act with
  | cycle =>
    obtain ⟨t, ht, hc⟩ | ⟨f, _, rfl, rfl⟩ := Session.ofOutcome_ok h
    · obtain ⟨i, _, he⟩ := step_next ht
      obtain ⟨rfl, hs, hr⟩ := Session.complete_eq hc
      exact .inr (.inr ⟨hs, hr, .cycle i _ he⟩)
    · exact .inr (.inl ⟨f, rfl⟩)
  | stepInsn n =>
    obtain ⟨t, ht, hc⟩ | ⟨f, _, rfl, rfl⟩ := Session.ofOutcome_ok h
    · obtain ⟨i, he⟩ := stepInsn_next ht
      obtain ⟨rfl, hs, hr⟩ := Session.complete_eq hc
      exact .inr (.inr ⟨hs, hr, .stepInsn n i _ he⟩)
    · exact .inr (.inl ⟨f, rfl⟩)
  | decode c =>
    simp only [Session.actLive] at h
    split at h <;> cases h
    · exact .inr (.inr ⟨rfl, nofun, .decode c⟩)
    · exact .inr (.inl ⟨_, rfl⟩)
  | busRead addr =>
    simp only [Session.actLive] at h
    split at h <;> cases h
    · exact .inr (.inr ⟨rfl, nofun, .busRead addr⟩)
    · exact .inr (.inl ⟨_, rfl⟩)
  | busWrite addr v =>
    simp only [Session.actLive] at h
    split at h <;> cases h
    · next t ht => exact .inr (.inr ⟨rfl, nofun, .busWrite addr v t ht⟩)
    · exact .inr (.inl ⟨_, rfl⟩)
  | readReg q => cases h; exact .inr (.inr ⟨rfl, nofun, .readReg q⟩)
  | writeReg q v => cases h; exact .inr (.inr ⟨rfl, nofun, .writeReg q v⟩)
  | readPc => cases h; exact .inr (.inr ⟨rfl, nofun, .readPc⟩)
  | writePc v => cases h; exact .inr (.inr ⟨rfl, nofun, .writePc v⟩)
  | readFlag f => cases h; exact .inr (.inr ⟨rfl, nofun, .readFlag f⟩)
  | writeFlag f b => cases h; exact .inr (.inr ⟨rfl, nofun, .writeFlag f b⟩)
  | endSession => cases h; exact .inl ⟨rfl, rfl⟩

/-- All that a defined host action can do, on any session: end it, and on a live one record a fault or go on live
(R116, R122, R141). -/
theorem Session.act_ok {se se' : Session} {act : Action} {r : Reply} (h : se.act act = .ok (se', r)) :
    (act = .endSession ∧ (se', r) = se.close ∧ ∀ recorded, se.status ≠ .ended recorded) ∨
    (se.status = .live ∧ ∃ f, (se', r) = se.fail f) ∨
    (se.status = .live ∧ se'.status = .live ∧ (∀ f, r ≠ .error f) ∧ Session.Moved se.machine act se'.machine) := by
  unfold Session.act at h
  split at h
  · next hs =>
    obtain ⟨ha, hc⟩ | hf | ⟨hs', hr, hm⟩ := Session.actLive_ok h
    · exact .inl ⟨ha, hc, by rw [hs]; exact nofun⟩
    · exact .inr (.inl ⟨hs, hf⟩)
    · exact .inr (.inr ⟨hs, hs'.trans hs, hr, hm⟩)
  · next f hs =>
    split at h
    · next ha => exact .inl ⟨ha, (Except.ok.inj h).symm, by rw [hs]; exact nofun⟩
    · cases h
  · cases h

end Sys2Proof.Machine
end

