-- ==== Sys2Proof/Tests/Slice0.lean ====
section
/-! SUPPORT. The model's own tests: ill-formed terms refused, words written out from the spec's encodings, one step of
each instruction against the spec's vectors (spec/95_test_vectors.md), and a witness for the hypotheses of each
statement that has some. Expected values are the spec's. -/

namespace Sys2Proof.Tests

open Sys2Proof.Machine

/-! ## Helpers -/

/-- The next state of an outcome. -/
def nextOf (o : Host.Outcome State Fault Refusal) : Option State :=
  match o with
  | .next t => some t
  | .fault _ => none
  | .refused _ => none

/-- The fault of an outcome. -/
def faultOf (o : Host.Outcome State Fault Refusal) : Option Fault :=
  match o with
  | .next _ => none
  | .fault f => some f
  | .refused _ => none

/-- The refusal of an outcome. -/
def refusalOf (o : Host.Outcome State Fault Refusal) : Option Refusal :=
  match o with
  | .next _ => none
  | .fault _ => none
  | .refused r => some r

/-- The error of a result. -/
def errorOf {ε α : Type} (e : Except ε α) : Option ε :=
  match e with
  | .ok _ => none
  | .error x => some x

/-- The value of a result. -/
def valueOf {ε α : Type} (e : Except ε α) : Option α :=
  match e with
  | .ok x => some x
  | .error _ => none

/-- The reset state with a PRG-ROM image. -/
def withRom (bs : List Byte) : State := { State.reset with prgRom := Memory.ofBytes bs }

/-- The reset state with one RAM byte. -/
def withRam (i : Nat) (v : Byte) : State := State.reset.putRam i v

/-! ## Ill-formed terms are refused -/

/-- A row whose byte count is not 1 plus its operand width (R76 b). -/
theorem test_row_wrong_length : Row.wellFormed ⟨.andImmediate, .imm, 3, 2⟩ = false := by decide

/-- A table with two rows for one byte (R65). -/
theorem test_table_two_rows : OpcodeTable.wellFormed [(0x00#8, rowBrk), (0x00#8, rowAnd)] = false := by decide

/-- A table with an ill-formed row (R76 b). -/
theorem test_table_bad_row :
    OpcodeTable.wellFormed [(0x00#8, ⟨.brk, .abs, 1, 7⟩)] = false := by decide

/-- An Instruction value of four bytes (R60). -/
theorem test_insn_too_long : Insn.lengthOk ⟨.brk, none, none, 4, 7⟩ = false := by decide

/-- An Instruction value with both operands (R21). -/
theorem test_insn_two_operands :
    Insn.atMostOneOperand ⟨.andImmediate, some 0x01#8, some 0x0002#16, 2, 2⟩ = false := by decide

/-- AND without its `short_value` (R89). -/
theorem test_insn_missing_operand : Insn.meetsClause ⟨.andImmediate, none, none, 2, 2⟩ = false := by decide

/-- `bytes` or `cycles` that are not the table's (R89, D19). -/
theorem test_insn_wrong_count : Insn.agreesWith opcodeTable ⟨.brk, none, none, 1, 2⟩ = false := by decide

/-- The step refuses such a value, and faults on a tag without a clause (R85, R89). -/
theorem test_step_ill_formed :
    refusalOf (stepInsn ⟨.andImmediate, none, none, 2, 2⟩ State.reset) = some .malformedInstruction ∧
    faultOf (stepInsn ⟨.other 0, none, none, 1, 2⟩ State.reset) = some (.unsupportedOpcode none) := by decide

/-! ## Words written out from the encodings (R61, R66; spec/95_test_vectors.md section 2.2) -/

/-- E1: 0b00101001 0b10000001 is AND #$81. -/
theorem test_decode_and :
    valueOf (decode opcodeTable (Stream.ofBytes [0b00101001#8, 0b10000001#8]) 0) =
      some ⟨.andImmediate, some 0x81#8, none, 2, 2⟩ := by decide

/-- E2: 0b00010110 0b00000010 is ASL $02,X. -/
theorem test_decode_asl :
    valueOf (decode opcodeTable (Stream.ofBytes [0b00010110#8, 0b00000010#8]) 0) =
      some ⟨.aslZeroPageX, some 0x02#8, none, 2, 6⟩ := by decide

/-- E3: 0b00000000 is BRK. -/
theorem test_decode_brk :
    valueOf (decode opcodeTable (Stream.ofBytes [0b00000000#8]) 0) = some ⟨.brk, none, none, 1, 7⟩ := by decide

/-- E10, E11: any cursor decodes. -/
theorem test_decode_unaligned :
    valueOf (decode opcodeTable (Stream.ofBytes [0x29#8, 0x29#8, 0x00#8]) 1) =
      some ⟨.andImmediate, some 0x00#8, none, 2, 2⟩ ∧
    valueOf (decode opcodeTable (Stream.ofBytes [0x29#8, 0x29#8, 0x00#8]) 2) = some ⟨.brk, none, none, 1, 7⟩ := by decide

/-- E4, E6, E7, E8: the errors and their order. -/
theorem test_decode_errors :
    errorOf (decode opcodeTable (Stream.ofBytes [0xEA#8]) 0) = some (.unsupportedOpcode 0xEA#8 0) ∧
    errorOf (decode opcodeTable (Stream.ofBytes [0x00#8, 0x29#8]) 1) = some (.malformedOperand 1) ∧
    errorOf (decode opcodeTable (Stream.ofBytes [0x00#8, 0xFF#8]) 1) = some (.unsupportedOpcode 0xFF#8 1) ∧
    errorOf (decode opcodeTable (Stream.ofBytes [0x00#8]) 1) = some (.malformedOperand 1) := by decide

/-- E14 to E17: the nearest real-6502 relatives are no instructions of this hardware. -/
theorem test_decode_relatives :
    [0x0A#8, 0x25#8, 0x06#8, 0x2D#8].map
      (fun op => errorOf (decode opcodeTable (Stream.ofBytes [op, 0x34#8, 0x12#8]) 0)) =
    [some (.unsupportedOpcode 0x0A#8 0), some (.unsupportedOpcode 0x25#8 0), some (.unsupportedOpcode 0x06#8 0),
      some (.unsupportedOpcode 0x2D#8 0)] := by decide

/-- E18, E22: absolute and zero-page operands of a table extended with such rows. -/
theorem test_decode_extended :
    valueOf (decode [(0x2D#8, ⟨.other 1, .abs, 3, 4⟩)] (Stream.ofBytes [0x2D#8, 0x34#8, 0x12#8]) 0) =
      some ⟨.other 1, none, some 0x1234#16, 3, 4⟩ ∧
    valueOf (decode [(0x25#8, ⟨.other 2, .zp, 2, 3⟩)] (Stream.ofBytes [0x25#8, 0x7F#8]) 0) =
      some ⟨.other 2, some 0x7F#8, none, 2, 3⟩ := by decide

/-- The table words of the three rows, with an operand of zeros and one of bits. -/
theorem test_table_words :
    decodeTableWord 8 0x00 = some .brk ∧ decodeTableWord 16 0x0016 = some (.aslZpx 0x00#8) ∧
    decodeTableWord 16 0x8129 = some (.andImm 0x81#8) ∧ decodeTableWord 8 0xEA = none := by decide

/-! ## One step of each instruction -/

/-- A12: A = 80, imm = 80, P = 7D gives P = FD: Z stays 0, C and bits 2 to 6 kept. -/
theorem test_and_flags :
    (nextOf (exec (.andImm 0x80#8) { State.reset with a := 0x80#8, p := 0x7D#8 })).map
      (fun t => (t.a, t.p, t.pc)) = some (0x80#8, 0xFD#8, 0x0002#16) := by decide

/-- S5, A13: A = 01, imm = 02, P = FF gives A = 00 and P = 7F. -/
theorem test_and_zero :
    (nextOf (exec (.andImm 0x02#8) { State.reset with a := 0x01#8, p := 0xFF#8 })).map
      (fun t => (t.a, t.p, t.out)) = some (0x00#8, 0x7F#8, some (.ok 2)) := by decide

/-- L12, L18: base FF with X = 01 wraps to 0000; old 81, P = 7C gives new 02, P = 7D. -/
theorem test_asl_wraps :
    (nextOf (exec (.aslZpx 0xFF#8) { withRam 0 0x81#8 with x := 0x01#8, p := 0x7C#8 })).map
      (fun t => (t.ramByte 0, t.ramByte 0x100, t.p)) = some (0x02#8, 0x00#8, 0x7D#8) := by decide

/-- L2, L11: base 02, X = 01, old 80 gives new 00 with C and Z set, N clear, and the mirror reads it. -/
theorem test_asl_zero :
    (nextOf (exec (.aslZpx 0x02#8) { withRam 3 0x80#8 with x := 0x01#8 })).map
      (fun t => (valueOf (t.memRead 0x0803#16), t.p, t.out)) = some (some 0x00#8, 0x03#8, some (.ok 6)) := by decide

/-- B1: BRK at 0004 leaves everything but `pc`. -/
theorem test_brk :
    nextOf (exec .brk { State.reset with pc := 0x0004#16, a := 0x12#8, x := 0x34#8, y := 0x56#8, p := 0x81#8 }) =
      some { State.reset with pc := 0x0005#16, a := 0x12#8, x := 0x34#8, y := 0x56#8, p := 0x81#8,
                              out := some (.brk 7) } := by decide

/-- X1, X2: at the last byte of a 16 KiB image, AND has no operand byte and BRK runs. -/
theorem test_rom_edge :
    faultOf (step { State.reset with pc := 0x3FFF#16, prgRom := [(0x3FFF, 0x29#8)] }) =
      some (.malformedOperand 0x3FFF) ∧
    (nextOf (step { State.reset with pc := 0x3FFF#16 })).map (fun t => (t.pc, t.out)) =
      some (0x4000#16, some (.brk 7)) := by decide

/-- X4, X6: `pc` is a stream index, not a bus address; an unlisted byte is recorded with the cursor. -/
theorem test_fetch_faults :
    faultOf (step { State.reset with pc := 0x8000#16 }) = some (.malformedOperand 0x8000) ∧
    faultOf (step { State.reset with pc := 0x3FFF#16, prgRom := [(0x3FFF, 0xEA#8)] }) =
      some (.unsupportedOpcode (some ⟨0xEA#8, 0x3FFF⟩)) := by decide

/-- A placed table word is the first instruction after reset. -/
theorem test_placed_word_runs :
    (nextOf (step (State.reset.withFetchWord 16 0x8129))).map (fun t => (t.p, t.pc, t.out)) =
      some (0x02#8, 0x0002#16, some (.ok 2)) ∧
    (nextOf (step ({ State.reset with pc := 0x4000#16 }.withFetchWord 16 0x0016))).map (fun t => (t.pc, t.out)) =
      some (0x0002#16, some (.ok 6)) := by decide

/-! ## The bus, construction, the session -/

/-- M10 to M13: the gap's ends. -/
theorem test_read_gap :
    [0x2000#16, 0x401F#16, 0x4020#16, 0x7FFF#16].map (fun a => errorOf (State.reset.memRead a)) =
    [some (.unmappedAddress 0x2000#16), some (.unmappedAddress 0x401F#16), some (.unmappedAddress 0x4020#16),
      some (.unmappedAddress 0x7FFF#16)] := by decide

/-- M14 to M17: a 16 KiB image is seen twice. -/
theorem test_read_rom16 :
    [0x8000#16, 0xC000#16, 0xBFFF#16, 0xFFFF#16].map
      (fun a => valueOf ({ State.reset with prgRom := [(0, 0xA5#8), (0x3FFF, 0x5A#8)] }.memRead a)) =
    [some 0xA5#8, some 0xA5#8, some 0x5A#8, some 0x5A#8] := by decide

/-- M19 to M21: a 32 KiB image is seen once. -/
theorem test_read_rom32 :
    [0x8000#16, 0xC000#16, 0xFFFF#16].map (fun a => valueOf (
      { State.reset with prgLen := .kib32, prgRom := [(0, 0xA5#8), (0x4000, 0x77#8), (0x7FFF, 0x5A#8)] }.memRead a)) =
    [some 0xA5#8, some 0x77#8, some 0x5A#8] := by decide

/-- K3, K5, K6: the mapper check alone decides, whatever the buffer; a wrong length is refused. -/
theorem test_construct_mapper :
    faultOf (construct 1 [0x29#8] PowerOn.zero) = some (.unsupportedMapper 1) ∧
    faultOf (construct 1 [] PowerOn.zero) = some (.unsupportedMapper 1) ∧
    refusalOf (construct 0 [] PowerOn.zero) = some (.unsupportedPrgLength 0) := by decide

/-- Program 4 of the spec at its second cycle: the host gets the error, the machine is as before, and then only ending
the session is left. -/
theorem test_session_fault :
    valueOf ((Session.start { withRom [0x29#8, 0x0F#8, 0xEA#8, 0x00#8] with pc := 0x0002#16 }).act .cycle) =
      some (⟨{ withRom [0x29#8, 0x0F#8, 0xEA#8, 0x00#8] with pc := 0x0002#16 },
        .faulted (.unsupportedOpcode (some ⟨0xEA#8, 2⟩)), 0⟩, .error (.unsupportedOpcode (some ⟨0xEA#8, 2⟩))) ∧
    errorOf ((⟨State.reset, .faulted (.malformedOperand 2), 0⟩ : Session).act .cycle) = some .sessionOver := by decide

/-- An ended session keeps the fault that it recorded, so it differs from one that ended without a fault (R116). -/
theorem test_end_keeps_fault :
    valueOf ((⟨State.reset, .faulted (.malformedOperand 2), 0⟩ : Session).act .endSession) =
      some (⟨State.reset, .ended (some (.malformedOperand 2)), 0⟩, .done) ∧
    valueOf ((Session.start State.reset).act .endSession) = some (⟨State.reset, .ended none, 0⟩, .done) := by decide

/-- The launch premises hold of a fresh session on an image that holds the program, and fail once it has faulted (R142). -/
theorem test_launch_premises :
    (Session.start (withRom [0x29#8, 0xF0#8, 0x00#8])).launched [] [0x29#8, 0xF0#8, 0x00#8] = true ∧
    (⟨withRom [0x00#8], .faulted (.malformedOperand 0), 0⟩ : Session).launched [] [0x00#8] = false := by decide

/-- SP = 0xFF unless the host changed it (R142): a host write of SP still launches, an SP that it does not explain does
not. -/
theorem test_launch_after_host_sp :
    (valueOf ((Session.start (withRom [0x00#8])).actAll [.writeReg .x 0x05#8, .writeReg .sp 0x80#8])).map
      (fun se => (se.machine.sp, se.launched [.writeReg .x 0x05#8, .writeReg .sp 0x80#8] [0x00#8],
        se.launched [.writeReg .x 0x05#8] [0x00#8])) = some (0x80#8, true, false) := by decide

/-- A run ends at the first Break, completed (R140). -/
theorem test_run_ends_at_break :
    runToEnd 3 (withRom [0x29#8, 0xF0#8, 0x00#8]) =
      .completed { withRom [0x29#8, 0xF0#8, 0x00#8] with pc := 0x0003#16, p := 0x02#8, out := some (.brk 7) } := by
  decide

/-! ## Witnesses: states and operands that meet the hypotheses of the statements -/

/-- BusWriteContract, at both ends of each range. -/
theorem witness_BusWriteContract :
    ((0x0000#16).toNat ≤ 0x1FFF ∧ (0x1FFF#16).toNat ≤ 0x1FFF ∧
      (valueOf (State.reset.memWrite 0x1FFF#16 0x22#8)).map (fun t => t.ramByte 0x7FF) = some 0x22#8 ∧
      ¬((0x0000#16).toNat ≤ 0x1FFF ∧ (0x0000#16).toNat % 0x0800 = (0x1FFF#16).toNat % 0x0800)) ∧
    (0x8000 ≤ (0x8000#16).toNat ∧ 0x8000 ≤ (0xFFFF#16).toNat ∧
      errorOf (State.reset.memWrite 0x8000#16 0xA5#8) = some (.readOnlyViolation 0x8000#16) ∧
      errorOf (State.reset.memWrite 0xFFFF#16 0x00#8) = some (.readOnlyViolation 0xFFFF#16)) ∧
    (0x2000 ≤ (0x2000#16).toNat ∧ (0x2000#16).toNat ≤ 0x7FFF ∧ 0x2000 ≤ (0x7FFF#16).toNat ∧
      (0x7FFF#16).toNat ≤ 0x7FFF ∧
      errorOf (State.reset.memWrite 0x2000#16 0x00#8) = some (.unmappedAddress 0x2000#16) ∧
      errorOf (State.reset.memWrite 0x7FFF#16 0xFF#8) = some (.unmappedAddress 0x7FFF#16)) := by decide

/-- RomWindowReads: an image of each length. -/
theorem witness_RomWindowReads :
    State.reset.prgLen = .kib16 ∧ { State.reset with prgLen := .kib32 }.prgLen = .kib32 := by decide

/-- StoresNeverReachTheStream: a write and a step that complete. -/
theorem witness_StoresNeverReachTheStream :
    (∃ t, State.reset.memWrite 0x0000#16 0x11#8 = .ok t) ∧ (∃ t, step State.reset = .next t) := ⟨⟨_, rfl⟩, ⟨_, rfl⟩⟩

/-- AndImmediateFrame: AND completes; the kept bits' range has both its ends. -/
theorem witness_AndImmediateFrame :
    (∃ t, exec (.andImm 0x80#8) State.reset = .next t) ∧ (2 ≤ 2 ∧ 2 ≤ 6) ∧ (2 ≤ 6 ∧ 6 ≤ 6) :=
  ⟨⟨_, rfl⟩, by decide, by decide⟩

/-- AslZeroPageXFrame: ASL completes at its highest effective address, and addresses beside it, past its mirrors and
outside RAM meet the clause about unchanged bytes. -/
theorem witness_AslZeroPageXFrame :
    (∃ t, exec (.aslZpx 0xFF#8) State.reset = .next t) ∧
    [0x0000#16, 0x00FE#16, 0x0100#16, 0x07FF#16, 0x2000#16, 0x80FF#16].all (fun addr =>
      decide (¬(addr.toNat ≤ 0x1FFF ∧ addr.toNat % 0x0800 = (eaZpx 0xFF#8 State.reset.x).toNat))) = true :=
  ⟨⟨_, exec_aslZpx_eq 0xFF#8 State.reset⟩, by decide⟩

/-- ZeroIsResultZero: a byte 0x80 at the effective address. -/
theorem witness_ZeroIsResultZero :
    valueOf ((withRam 3 0x80#8).memRead (eaZpx 0x03#8 (withRam 3 0x80#8).x)) = some 0x80#8 := by decide

/-- FlagWritesAreExact: bits that no instruction writes, and Carry for AND. -/
theorem witness_FlagWritesAreExact :
    ∀ j ∈ [2, 6], j < 8 ∧ j ≠ Flag.bit .z ∧ j ≠ Flag.bit .n ∧ j ≠ Flag.bit .c ∧ Flag.bit .c < 8 := by decide

/-- EightShiftsClearTheByte: a readable byte at the effective address. -/
theorem witness_EightShiftsClearTheByte :
    (withRam 0xFF 0x55#8).memRead (eaZpx 0xFF#8 (withRam 0xFF 0x55#8).x) = .ok 0x55#8 := rfl

/-- ShortOperandIsNextByte: AND at the very end of a stream, and a zero-page row. -/
theorem witness_ShortOperandIsNextByte :
    ((Stream.ofBytes [0x29#8, 0x81#8]).read 0 = some 0x29#8 ∧ OpcodeTable.row opcodeTable 0x29#8 = some rowAnd ∧
      rowAnd.mode = .imm ∧ rowAnd.bytes = 2 ∧ 0 + 2 ≤ (Stream.ofBytes [0x29#8, 0x81#8]).len) ∧
    ((Stream.ofBytes [0x16#8, 0x02#8]).read 0 = some 0x16#8 ∧ OpcodeTable.row opcodeTable 0x16#8 = some rowAsl ∧
      rowAsl.mode = .zpx ∧ rowAsl.bytes = 2 ∧ 0 + 2 ≤ (Stream.ofBytes [0x16#8, 0x02#8]).len) ∧
    ((Stream.ofBytes [0x25#8, 0x7F#8]).read 0 = some 0x25#8 ∧
      OpcodeTable.row [(0x25#8, ⟨.other 2, .zp, 2, 3⟩)] 0x25#8 = some ⟨.other 2, .zp, 2, 3⟩ ∧
      (⟨.other 2, .zp, 2, 3⟩ : Row).mode = .zp ∧ (⟨.other 2, .zp, 2, 3⟩ : Row).bytes = 2 ∧
      0 + 2 ≤ (Stream.ofBytes [0x25#8, 0x7F#8]).len) := by decide

/-- LongOperandIsLittleEndian: an absolute row of an extended table at the very end of a stream. -/
theorem witness_LongOperandIsLittleEndian :
    (Stream.ofBytes [0x2D#8, 0x34#8, 0x12#8]).read 0 = some 0x2D#8 ∧
    OpcodeTable.row [(0x2D#8, ⟨.other 1, .abs, 3, 4⟩)] 0x2D#8 = some ⟨.other 1, .abs, 3, 4⟩ ∧
    (⟨.other 1, .abs, 3, 4⟩ : Row).mode = .abs ∧ (⟨.other 1, .abs, 3, 4⟩ : Row).bytes = 3 ∧
    0 + 3 ≤ (Stream.ofBytes [0x2D#8, 0x34#8, 0x12#8]).len := by decide

/-- AcceptedBytesAreAnEncoding: accepted bytes, at the end of a stream. -/
theorem witness_AcceptedBytesAreAnEncoding :
    decode opcodeTable (Stream.ofBytes [0x29#8, 0x00#8]) 1 = .ok ⟨.brk, none, none, 1, 7⟩ := rfl

/-- DecodeReadsOnlyTheStream: two different states with one PRG-ROM image. -/
theorem witness_DecodeReadsOnlyTheStream :
    (withRam 3 0x80#8).prgRom = State.reset.prgRom ∧ (withRam 3 0x80#8).prgLen = State.reset.prgLen ∧
    withRam 3 0x80#8 ≠ State.reset := by decide

/-- CycleIsDecodeThenStep: a cursor that decodes, the first that does not, and an unlisted byte. -/
theorem witness_CycleIsDecodeThenStep :
    decode opcodeTable ⟨State.reset.prgLen.bytes, State.reset.prgRom⟩ State.reset.pc.toNat =
      .ok ⟨.brk, none, none, 1, 7⟩ ∧
    decode opcodeTable ⟨State.reset.prgLen.bytes, State.reset.prgRom⟩ (0x4000#16).toNat =
      .error (.malformedOperand 0x4000) ∧
    decode opcodeTable ⟨(withRom [0xEA#8]).prgLen.bytes, (withRom [0xEA#8]).prgRom⟩ (withRom [0xEA#8]).pc.toNat =
      .error (.unsupportedOpcode 0xEA#8 0) := ⟨rfl, rfl, rfl⟩

/-- StepRunsTheDecodedInstruction. -/
theorem witness_StepRunsTheDecodedInstruction :
    decode opcodeTable (withRom [0x29#8, 0x81#8]).stream (withRom [0x29#8, 0x81#8]).pc.toNat =
      .ok (Instr.andImm 0x81#8).toInsn ∧ (Instr.andImm 0x81#8).toInsn.toInstr = some (.andImm 0x81#8) := ⟨rfl, rfl⟩

/-- StepRunsTheEncodedInstruction, for each instruction. -/
theorem witness_StepRunsTheEncodedInstruction :
    State.reset.stream.holds State.reset.pc.toNat (encode .brk) = true ∧
    (withRom [0x16#8, 0x02#8]).stream.holds State.reset.pc.toNat (encode (.aslZpx 0x02#8)) = true ∧
    (withRom [0x29#8, 0x81#8]).stream.holds State.reset.pc.toNat (encode (.andImm 0x81#8)) = true := by decide

/-- CycleFaultsOnlyInDecode: a step that faults in each of the two ways. -/
theorem witness_CycleFaultsOnlyInDecode :
    step { State.reset with pc := 0x4000#16 } = .fault (.malformedOperand 0x4000) ∧
    step (withRom [0xEA#8]) = .fault (.unsupportedOpcode (some ⟨0xEA#8, 0⟩)) := ⟨rfl, rfl⟩

/-- PcStrictlyIncreases, StepKeepsTheInvariant: a step that completes, from a state that meets the invariant. -/
theorem witness_PcStrictlyIncreases :
    State.reset.Inv ∧ (∃ t, step State.reset = .next t) ∧
    (∃ t, step (withRom [0x29#8, 0x81#8]) = .next t) := ⟨⟨rfl, rfl, rfl, rfl, rfl⟩, ⟨_, rfl⟩, ⟨_, rfl⟩⟩

/-- StepKeepsTheInvariant: the one memory instruction, from a state that meets the invariant. -/
theorem witness_StepKeepsTheInvariant :
    (withRom [0x16#8, 0x02#8]).Inv ∧ ∃ t, step (withRom [0x16#8, 0x02#8]) = .next t :=
  ⟨⟨rfl, rfl, rfl, rfl, rfl⟩, ⟨_, step_of_fetch (i := .aslZpx 0x02#8) rfl |>.trans (exec_aslZpx_eq _ _)⟩⟩

/-- CycleChangesOnlyTheZeroPage: a step that completes, and addresses at the ends of the clause's ranges. -/
theorem witness_CycleChangesOnlyTheZeroPage :
    (∃ t, step State.reset = .next t) ∧
    [0x0100#16, 0x07FF#16, 0x0900#16, 0x1FFF#16, 0x2000#16, 0xFFFF#16].all (fun addr =>
      decide (0x1FFF < addr.toNat ∨ 0x0100 ≤ addr.toNat % 0x0800)) = true := ⟨⟨_, rfl⟩, by decide⟩

/-- TagWithoutClauseFaults. -/
theorem witness_TagWithoutClauseFaults : (⟨.other 0, none, none, 1, 2⟩ : Insn).opCode = .other 0 := rfl

/-- StepNeedsAWellFormedInstruction: a well-formed and an ill-formed value of a tag with a clause. -/
theorem witness_StepNeedsAWellFormedInstruction :
    (∀ k, (⟨.andImmediate, some 0x81#8, none, 2, 2⟩ : Insn).opCode ≠ .other k) ∧
    Insn.wellFormed opcodeTable ⟨.andImmediate, some 0x81#8, none, 2, 2⟩ = true ∧
    (∀ k, (⟨.andImmediate, none, none, 2, 2⟩ : Insn).opCode ≠ .other k) ∧
    Insn.wellFormed opcodeTable ⟨.andImmediate, none, none, 2, 2⟩ = false :=
  ⟨fun _ => (by simp), (by decide), fun _ => (by simp), (by decide)⟩

/-- HostKeepsTheInvariant: a host write on a live session that meets the invariant. -/
theorem witness_HostKeepsTheInvariant :
    (Session.start State.reset).machine.Inv ∧
    ∃ se r, (Session.start State.reset).act (.busWrite 0x1FFF#16 0x22#8) = .ok (se, r) :=
  ⟨⟨rfl, rfl, rfl, rfl, rfl⟩, ⟨_, _, rfl⟩⟩

/-- EqualReadsMeanEqualStates: a byte written and written back, beside the reset state. -/
theorem witness_EqualReadsMeanEqualStates :
    ((withRam 5 0x01#8).putRam 5 0x00#8).Inv ∧ State.reset.Inv ∧
    (∀ addr, ((withRam 5 0x01#8).putRam 5 0x00#8).memRead addr = State.reset.memRead addr) ∧
    (∀ r, ((withRam 5 0x01#8).putRam 5 0x00#8).reg r = State.reset.reg r) ∧
    ((withRam 5 0x01#8).putRam 5 0x00#8).pc = State.reset.pc ∧
    ((withRam 5 0x01#8).putRam 5 0x00#8).prgLen = State.reset.prgLen ∧
    ((withRam 5 0x01#8).putRam 5 0x00#8).out = State.reset.out :=
  ⟨⟨rfl, rfl, rfl, rfl, rfl⟩, ⟨rfl, rfl, rfl, rfl, rfl⟩, fun _ => rfl, fun r => by cases r <;> rfl, rfl, rfl, rfl⟩

/-- ConstructionOutcome: a mapper that fails, both admitted lengths, and lengths at the edges of the refused ranges. -/
theorem witness_ConstructionOutcome :
    (1 ≠ 0) ∧ (List.replicate 16384 0x00#8).length = 16384 ∧ (List.replicate 32768 0x00#8).length = 32768 ∧
    16383 < (List.replicate 16384 0x00#8).length ∧ 32767 < (List.replicate 32768 0x00#8).length ∧
    ∀ n ∈ [0, 16383, 16385, 32767, 32769, 49152],
      (List.replicate n 0x00#8).length ≠ 16384 ∧ (List.replicate n 0x00#8).length ≠ 32768 := by
  simp only [List.length_replicate]; decide

/-- FaultIsTerminal: a faulted session with an action that is not its end, and an ended session. -/
theorem witness_FaultIsTerminal :
    (⟨State.reset, .faulted (.malformedOperand 0), 0⟩ : Session).status = .faulted (.malformedOperand 0) ∧
    Action.readPc ≠ .endSession ∧ (⟨State.reset, .ended none, 0⟩ : Session).status = .ended none ∧
    (⟨State.reset, .ended (some (.malformedOperand 0)), 0⟩ : Session).status = .ended (some (.malformedOperand 0)) := by
  decide

/-- FaultIsNeverCleared: a faulted session, and its one defined action. -/
theorem witness_FaultIsNeverCleared :
    (⟨State.reset, .faulted (.malformedOperand 0), 0⟩ : Session).status.fault = some (.malformedOperand 0) ∧
    (⟨State.reset, .faulted (.malformedOperand 0), 0⟩ : Session).act .endSession =
      .ok (⟨State.reset, .ended (some (.malformedOperand 0)), 0⟩, .done) := ⟨rfl, rfl⟩

/-- OnlyTheHostChangesSp: a cycle, then a host write of SP, then a write of another register. -/
theorem witness_OnlyTheHostChangesSp :
    ((Session.start State.reset).actAll [.cycle, .writeReg .sp 0x80#8, .writeReg .y 0x01#8]).toOption.isSome = true := by
  decide

/-- FaultIsPrecise: a host read of the gap. -/
theorem witness_FaultIsPrecise :
    (Session.start State.reset).act (.busRead 0x2000#16) =
      .ok (⟨State.reset, .faulted (.unmappedAddress 0x2000#16), 0⟩, .error (.unmappedAddress 0x2000#16)) := rfl

/-- TotalCyclesAccumulates, CycleFaultReachesTheHost: a live session whose next cycle completes, and one whose faults. -/
theorem witness_TotalCyclesAccumulates :
    (Session.start State.reset).status = .live ∧ (∃ t, step (Session.start State.reset).machine = .next t) ∧
    (Session.start (withRom [0xEA#8])).status = .live ∧
    step (Session.start (withRom [0xEA#8])).machine = .fault (.unsupportedOpcode (some ⟨0xEA#8, 0⟩)) :=
  ⟨rfl, ⟨_, rfl⟩, rfl, rfl⟩

end Sys2Proof.Tests
end

section
/-! The flags and the general registers under every instruction (spec/10_state.md R13, R15, R16, R17): what AND and ASL
answer in full, how a write of Carry or of Y passes through an instruction, and the statements settled from them. -/

namespace Sys2Proof.Machine

/-! ## Writes of flags and registers that pass each other -/

/-- Writes of two different flags commute (R8). -/
theorem State.setFlag_comm (s : State) {f g : Flag} (h : f ≠ g) (b c : Bool) :
    (s.setFlag f b).setFlag g c = (s.setFlag g c).setFlag f b :=
  congrArg (s.setReg .p) (putBit_comm s.p _ _ b c (fun hb => h (Flag.bit_inj hb)) f.bit_lt g.bit_lt)

/-- The last write of a flag is the one that counts. -/
@[simp] theorem State.setFlag_setFlag (s : State) (f : Flag) (b c : Bool) :
    (s.setFlag f b).setFlag f c = s.setFlag f c :=
  congrArg (s.setReg .p) (putBit_putBit s.p _ b c f.bit_lt)

/-- Writing Zero and Negative passes a write of Carry (R15, R16). -/
theorem State.setZN_setFlag_c (s : State) (b : Bool) (r : Byte) :
    (s.setFlag .c b).setZN r = (s.setZN r).setFlag .c b := by
  unfold State.setZN
  rw [State.setFlag_comm s (by decide : Flag.c ≠ .z), State.setFlag_comm _ (by decide : Flag.c ≠ .n)]

/-- A write of a flag changes no RAM byte (R8). -/
@[simp] theorem State.ramByte_setFlag (s : State) (f : Flag) (b : Bool) (i : Nat) :
    (s.setFlag f b).ramByte i = s.ramByte i := rfl

/-- A write of a RAM byte passes a write of a flag. -/
theorem State.putRam_setFlag (s : State) (f : Flag) (b : Bool) (i : Nat) (v : Byte) :
    (s.setFlag f b).putRam i v = (s.putRam i v).setFlag f b := rfl

/-- What a register reads after a register was written: the written one its new value, any other as before (R13). -/
theorem State.reg_setReg (s : State) (r q : Reg) (v : Byte) :
    (s.setReg r v).reg q = if q = r then v else s.reg q := by
  split
  · next h => rw [h, State.reg_setReg_same]
  · next h => exact State.reg_setReg_other s r q v (Ne.symm h)

/-! ## What AND and ASL answer -/

/-- AND completes with `A & imm` in A, Z and N from it, and C as before (R95). -/
theorem exec_andImm_spec (imm : Byte) (s : State) : ∃ t, exec (.andImm imm) s = .next t ∧ t.a = s.a &&& imm ∧
    t.flag .z = (t.a == 0#8) ∧ t.flag .n = t.a.getLsbD 7 ∧ t.flag .c = s.flag .c := by
  refine ⟨_, exec_andImm_eq imm s, rfl, ?zero, ?negative, ?carry⟩
  case zero => rw [State.flag_completeOk, State.flag_setZN_z]; rfl
  case negative => rw [State.flag_completeOk, State.flag_setZN_n]; rfl
  case carry => rw [State.flag_completeOk, State.flag_setZN_c]; rfl

/-- After ASL the byte at the effective address is the byte before, shifted (R100). -/
theorem exec_aslZpx_read_ea {base : Byte} {s t : State} (h : exec (.aslZpx base) s = .next t) :
    t.memRead (eaZpx base s.x) = .ok (shiftLeftOne (s.ramByte (eaZpx base s.x).toNat)) := by
  have hlt := eaZpx_lt base s.x
  rw [exec_aslZpx_read h, if_pos ⟨by omega, Nat.mod_eq_of_lt (by omega)⟩]

/-- ASL completes with the byte at the effective address shifted left by one, C the bit shifted out, Z and N from the
shifted byte, and X as before (R100). -/
theorem exec_aslZpx_spec (base : Byte) (s : State) : ∃ t old, exec (.aslZpx base) s = .next t ∧
    s.memRead (eaZpx base s.x) = .ok old ∧ t.memRead (eaZpx base s.x) = .ok (old <<< 1) ∧
    t.flag .c = old.getLsbD 7 ∧ t.flag .z = (old <<< 1 == 0#8) ∧ t.flag .n = (old <<< 1).getLsbD 7 ∧ t.x = s.x := by
  have h := exec_aslZpx_eq base s
  refine ⟨_, _, h, State.memRead_eaZpx s base s.x, exec_aslZpx_read_ea h, ?carry, ?zero, ?negative, rfl⟩
  case carry => rw [State.flag_completeOk, State.flag_setZN_c, State.flag_setFlag, if_pos rfl]; rfl
  case zero => rw [State.flag_completeOk, State.flag_setZN_z]; rfl
  case negative => rw [State.flag_completeOk, State.flag_setZN_n]; rfl

/-! ## What an instruction does not read -/

/-- AND does the same whatever Carry holds, and keeps it (R17). -/
theorem exec_andImm_setFlag_c {imm : Byte} {s t : State} (h : exec (.andImm imm) s = .next t) (b : Bool) :
    exec (.andImm imm) (s.setFlag .c b) = .next (t.setFlag .c b) := by
  cases (exec_andImm_eq imm s).symm.trans h
  exact congrArg (fun u => Host.Outcome.next (u.completeOk rowAnd))
    (State.setZN_setFlag_c (s.setReg .a (s.a &&& imm)) b (s.a &&& imm))

/-- ASL overwrites Carry without reading it (R17). -/
theorem exec_aslZpx_setFlag_c (base : Byte) (s : State) (b : Bool) :
    exec (.aslZpx base) (s.setFlag .c b) = exec (.aslZpx base) s := by
  simp only [exec_aslZpx_eq, State.setFlag_x, State.ramByte_setFlag, State.putRam_setFlag, State.setFlag_setFlag]

/-- Every instruction does the same whatever Y holds, and keeps it (R13). -/
theorem exec_setReg_y {i : Instr} {s t : State} (h : exec i s = .next t) (v : Byte) :
    exec i (s.setReg .y v) = .next (t.setReg .y v) := by
  cases i with
  | brk => cases (exec_brk_eq s).symm.trans h; rfl
  | aslZpx base => cases (exec_aslZpx_eq base s).symm.trans h; exact exec_aslZpx_eq base (s.setReg .y v)
  | andImm imm => cases (exec_andImm_eq imm s).symm.trans h; rfl

/-! ## The statements -/

/-- Settles O13: the Negative flag of what AND and ASL answer. -/
theorem negativeIsResultBit7 : Obligations.NegativeIsResultBit7 := by
  intro s imm base
  obtain ⟨t, ht, ha, -, hn, -⟩ := exec_andImm_spec imm s
  obtain ⟨u, old, hu, -, hread, -, -, hun, -⟩ := exec_aslZpx_spec base s
  exact ⟨⟨t, ht, ha, hn⟩, ⟨u, _, hu, hread, hun⟩⟩

/-- Settles O14: the Zero flag of what AND and ASL answer; the byte 0x80 shifts to 0x00. -/
theorem zeroIsResultZero : Obligations.ZeroIsResultZero := by
  intro s imm base
  obtain ⟨t, ht, ha, hz, -, -⟩ := exec_andImm_spec imm s
  obtain ⟨u, old, hu, hold, hread, -, huz, -, -⟩ := exec_aslZpx_spec base s
  refine ⟨⟨t, ht, ha, hz⟩, ⟨u, old, _, hu, hold, hread, rfl, huz, ?_⟩⟩
  rintro rfl
  exact ⟨by decide, huz.trans (by decide)⟩

/-- Settles O15: ASL writes Carry from the bit it shifts out, AND keeps it, and a write of Carry before an instruction
passes through BRK and AND and is overwritten by ASL. -/
theorem carryIsOldBit7 : Obligations.CarryIsOldBit7 := by
  refine ⟨fun s base => ?asl, fun s imm => ?and, fun s b => ⟨?brkReads, fun imm => ?andReads, fun base => ?aslReads⟩⟩
  case asl =>
    obtain ⟨t, old, ht, hold, hread, hc, -, -, -⟩ := exec_aslZpx_spec base s
    exact ⟨t, old, _, ht, hold, hread, hc, shiftLeftOne_bit0 old⟩
  case and =>
    obtain ⟨t, ht, -, -, -, hc⟩ := exec_andImm_spec imm s
    exact ⟨t, ht, hc⟩
  case brkReads => exact ⟨_, exec_brk_eq s, exec_brk_eq (s.setFlag .c b)⟩
  case andReads =>
    obtain ⟨t, ht⟩ := exec_next (.andImm imm) s
    exact ⟨t, ht, exec_andImm_setFlag_c ht b⟩
  case aslReads => exact exec_aslZpx_setFlag_c base s b

/-- Settles O17: register reads after writes, A under AND, X under ASL, and Y under every instruction. -/
theorem generalRegistersArePlain : Obligations.GeneralRegistersArePlain := by
  refine ⟨State.reg_setReg, fun s imm => ?and, fun s base => ?asl, fun s i v => ?y⟩
  case and =>
    obtain ⟨t, ht, ha, -, -, -⟩ := exec_andImm_spec imm s
    exact ⟨t, ht, ha⟩
  case asl =>
    obtain ⟨t, old, ht, hold, hread, -, -, -, hx⟩ := exec_aslZpx_spec base s
    exact ⟨t, old, ht, hx, hold, hread⟩
  case y =>
    obtain ⟨t, ht⟩ := exec_next i s
    obtain ⟨-, -, hy, -, -, -⟩ := exec_common_frame ht
    exact ⟨t, ht, hy, exec_setReg_y ht v⟩

end Sys2Proof.Machine
end

section
/-! The bus for every address (spec/20_memory.md R32, R34 to R38): a RAM byte through its four mirror addresses, what a
write answers in each range, and the statements settled from them. -/

namespace Sys2Proof.Machine

/-! ## The mirror addresses of a RAM byte -/

/-- The RAM index is the low 11 bits of the address (R32). -/
theorem ramIndex_eq_low11 (a : Word) : ramIndex a = (a.extractLsb' 0 11).toNat := by
  rw [BitVec.extractLsb'_toNat, Nat.shiftRight_zero]; rfl

/-- The address of RAM byte `k` in window `j` does not wrap. -/
theorem mirror_toNat {k j : Nat} (hk : k < 0x0800) (hj : j < 4) :
    (BitVec.ofNat 16 (k + 0x0800 * j)).toNat = k + 0x0800 * j := by
  rw [BitVec.toNat_ofNat, Nat.mod_eq_of_lt (by omega)]

/-- The address of RAM byte `k` in window `j` lies in the RAM range (R31). -/
theorem mirror_le {k j : Nat} (hk : k < 0x0800) (hj : j < 4) :
    (BitVec.ofNat 16 (k + 0x0800 * j)).toNat ≤ 0x1FFF := by
  rw [mirror_toNat hk hj]; omega

/-- The RAM index of every mirror address of byte `k` is `k` (R32). -/
theorem ramIndex_mirror {k j : Nat} (hk : k < 0x0800) (hj : j < 4) :
    ramIndex (BitVec.ofNat 16 (k + 0x0800 * j)) = k := by
  rw [ramIndex, mirror_toNat hk hj, Nat.add_mul_mod_self_left, Nat.mod_eq_of_lt hk]

/-- A read through any mirror address of byte `k` answers that byte (R32, R34). -/
theorem State.memRead_mirror (s : State) {k j : Nat} (hk : k < 0x0800) (hj : j < 4) :
    s.memRead (BitVec.ofNat 16 (k + 0x0800 * j)) = .ok (s.ramByte k) := by
  rw [State.memRead, regionOf_ram (mirror_le hk hj), ramIndex_mirror hk hj]

/-- A write through any mirror address of byte `k` stores that byte (R32, R36). -/
theorem State.memWrite_mirror (s : State) {k j : Nat} (hk : k < 0x0800) (hj : j < 4) (v : Byte) :
    s.memWrite (BitVec.ofNat 16 (k + 0x0800 * j)) v = .ok (s.putRam k v) := by
  rw [State.memWrite, regionOf_ram (mirror_le hk hj), ramIndex_mirror hk hj]

/-- The RAM byte just written reads as the value written (R36). -/
@[simp] theorem State.ramByte_putRam_same (s : State) (i : Nat) (v : Byte) : (s.putRam i v).ramByte i = v := by
  rw [State.ramByte_putRam, if_pos rfl]

/-! ## What a write answers in each range -/

/-- A write of the RAM range completes with one RAM byte replaced (R36). -/
theorem State.memWrite_ram (s : State) {a : Word} (v : Byte) (h : a.toNat ≤ 0x1FFF) :
    s.memWrite a v = .ok (s.putRam (a.toNat % 0x0800) v) := by
  rw [State.memWrite_eq, if_pos h]

/-- A write of the ROM window fails with ReadOnlyViolation (R37). -/
theorem State.memWrite_rom (s : State) {a : Word} (v : Byte) (h : 0x8000 ≤ a.toNat) :
    s.memWrite a v = .error (.readOnlyViolation a) := by
  rw [State.memWrite_eq, if_neg (by omega), if_pos h]

/-- A write of the gap fails with UnmappedAddress (R38). -/
theorem State.memWrite_gap (s : State) {a : Word} (v : Byte) (h1 : 0x2000 ≤ a.toNat) (h2 : a.toNat ≤ 0x7FFF) :
    s.memWrite a v = .error (.unmappedAddress a) := by
  rw [State.memWrite_eq, if_neg (by omega), if_neg (by omega)]

/-! ## The statements -/

/-- Settles O2: a RAM write is `putRam` of the one byte, and the two other ranges answer their errors. -/
theorem busWriteContract : Obligations.BusWriteContract := by
  intro s addr v
  refine ⟨fun hram => ?ram, s.memWrite_rom v, s.memWrite_gap v⟩
  have hk : addr.toNat % 0x0800 < 0x0800 := Nat.mod_lt _ (by decide)
  refine ⟨_, s.memWrite_ram v hram, rfl, s.ramByte_putRam _ v, fun j => ?mirrors, fun other hother => ?others⟩
  case mirrors => rw [State.memRead_mirror _ hk j.isLt, State.ramByte_putRam_same]
  case others => rw [State.memRead_putRam, if_neg hother]

/-- Settles O3: every mirror address of a byte has that byte's index, so a write and a read through any two windows
meet at it. -/
theorem ramMirrorWindows : Obligations.RamMirrorWindows := by
  intro s k i j v
  refine ⟨ramIndex_mirror k.isLt i.isLt, ramIndex_eq_low11 _, s.memRead_mirror k.isLt i.isLt,
    _, s.memWrite_mirror k.isLt i.isLt v, s.ramByte_putRam_same _ v, ?readBack⟩
  rw [State.memRead_mirror _ k.isLt j.isLt, State.ramByte_putRam_same]

/-- Settles O1: the bus read of every address, the ROM index written out by the length of the image. -/
theorem busReadContract : Obligations.BusReadContract := State.memRead_eq

end Sys2Proof.Machine
end

section
/-! The operand fields of a decoded Instruction for every addressing mode, whatever the opcode table (spec/30_encoding.md
R63, R64), and the statements settled from them. -/

namespace Sys2Proof.Machine

/-! ## The operand of each addressing mode -/

/-- Immediate and the two zero-page modes carry the byte at cursor + 1 and no 16-bit operand (R63). -/
theorem operands_of_shortMode {mode : AddrMode} (h : mode = .imm ∨ mode = .zp ∨ mode = .zpx) (s : Sys2Proof.Stream)
    (c : Nat) : shortOperand mode s c = s.read (c + 1) ∧ longOperand mode s c = none := by
  rcases h with rfl | rfl | rfl
  · exact ⟨rfl, rfl⟩
  · exact ⟨rfl, rfl⟩
  · exact ⟨rfl, rfl⟩

/-- Absolute mode carries the two bytes after the opcode, the first the low byte (R64). -/
theorem longOperand_abs {s : Sys2Proof.Stream} {c : Nat} {lo hi : Byte} (hlo : s.read (c + 1) = some lo)
    (hhi : s.read (c + 2) = some hi) : longOperand .abs s c = some (littleEndian lo hi) := by
  simp only [longOperand, hlo, hhi]

/-- A little-endian pair is the low byte plus 256 times the high byte (R46, R64). -/
theorem littleEndian_toNat (lo hi : Byte) : (littleEndian lo hi).toNat = lo.toNat + 256 * hi.toNat := by
  have hadd : hi.toNat <<< 8 + lo.toNat = hi.toNat <<< 8 ||| lo.toNat := Nat.shiftLeft_add_eq_or_of_lt lo.isLt hi.toNat
  rw [littleEndian, BitVec.toNat_append, ← hadd, Nat.shiftLeft_eq]
  omega

/-! ## The statements -/

/-- Settles O23: the row's two bytes fit, so decode assembles its Instruction with the byte at cursor + 1. -/
theorem shortOperandIsNextByte : Obligations.ShortOperandIsNextByte := by
  intro tab s c op r hread hrow hmode hbytes hfit
  have hdecode : decode tab s c = .ok (assemble r s c) := decode_row hread hrow (by omega)
  have hbyte := Stream.read_of_lt (show c + 1 < s.len by omega)
  obtain ⟨hshort, hlong⟩ := operands_of_shortMode hmode s c
  exact ⟨_, _, hdecode, hbyte, hshort.trans hbyte, hlong⟩

/-- Settles O24: the row's three bytes fit, so decode assembles its Instruction with the little-endian pair after the
opcode. -/
theorem longOperandIsLittleEndian : Obligations.LongOperandIsLittleEndian := by
  intro tab s c op r hread hrow hmode hbytes hfit
  have hdecode : decode tab s c = .ok (assemble r s c) := decode_row hread hrow (by omega)
  have hlo := Stream.read_of_lt (show c + 1 < s.len by omega)
  have hhi := Stream.read_of_lt (show c + 2 < s.len by omega)
  have hshort : shortOperand r.mode s c = none := by rw [hmode]; rfl
  have hlong : longOperand r.mode s c = some (littleEndian (s.cells.get (c + 1)) (s.cells.get (c + 2))) := by
    rw [hmode, longOperand_abs hlo hhi]
  exact ⟨_, _, _, _, hdecode, hlo, hhi, hlong, hshort, rfl, littleEndian_toNat _ _⟩

end Sys2Proof.Machine
end

section
/-! The exact flag sets of the three instructions (spec/40_execution_cycle.md R94): which bits of P each one keeps, and
the statement settled from them. -/

namespace Sys2Proof.Machine

/-! ## The status bits an instruction keeps -/

/-- AND keeps every bit of P but Zero and Negative (R94, R95). -/
theorem exec_andImm_keeps_bit {imm : Byte} {s t : State} (h : exec (.andImm imm) s = .next t) {j : Nat} (hj : j < 8)
    (hz : j ≠ Flag.bit .z) (hn : j ≠ Flag.bit .n) : t.p.getLsbD j = s.p.getLsbD j :=
  (exec_andImm_bit h j hj).trans ((if_neg hn).trans (if_neg hz))

/-- ASL keeps every bit of P but Zero, Negative and Carry (R94, R100). -/
theorem exec_aslZpx_keeps_bit {base : Byte} {s t : State} (h : exec (.aslZpx base) s = .next t) {j : Nat} (hj : j < 8)
    (hz : j ≠ Flag.bit .z) (hn : j ≠ Flag.bit .n) (hc : j ≠ Flag.bit .c) : t.p.getLsbD j = s.p.getLsbD j :=
  (exec_aslZpx_bit h j hj).trans ((if_neg hn).trans ((if_neg hz).trans (if_neg hc)))

/-! ## The statement -/

/-- Settles O16: the flags AND and ASL write come from what they answer, every other bit of P is kept, and BRK keeps P
whole. -/
theorem flagWritesAreExact : Obligations.FlagWritesAreExact := by
  refine fun s => ⟨fun imm => ?and, fun base => ?asl, ⟨_, exec_brk_eq s, rfl⟩⟩
  case and =>
    obtain ⟨t, ht, -, hz, hn, -⟩ := exec_andImm_spec imm s
    exact ⟨t, ht, hz, hn, fun _ => exec_andImm_keeps_bit ht⟩
  case asl =>
    obtain ⟨t, old, ht, hold, hread, hc, hz, hn, -⟩ := exec_aslZpx_spec base s
    exact ⟨t, old, _, ht, hold, hread, hc, hz, hn, fun _ => exec_aslZpx_keeps_bit ht⟩

end Sys2Proof.Machine
end

section
/-! The decoder against the encoder (spec/30_encoding.md R60 to R71): what a stream holds, the four answers of decode,
and the statements settled from them. -/

namespace Sys2Proof

open Sys2Proof.Machine (Memory)

/-! ## What a stream holds -/

/-- A stream holds bytes from a cursor on exactly when each is read at its place (R62). -/
theorem Stream.holds_iff (s : Stream) (c : Nat) (bs : List Byte) :
    s.holds c bs = true ↔ ∀ j, j < bs.length → s.read (c + j) = bs[j]? := by
  induction bs generalizing c with
  | nil => simp [Stream.holds]
  | cons b rest ih =>
    simp only [Stream.holds, Bool.and_eq_true, beq_iff_eq, ih, List.length_cons]
    constructor
    · rintro ⟨hb, hrest⟩ j hj
      cases j with
      | zero => exact hb
      | succ j => rw [Nat.add_comm j 1, ← Nat.add_assoc, hrest j (by omega), Nat.add_comm 1 j, List.getElem?_cons_succ]
    · intro h
      refine ⟨h 0 (by omega), fun j hj => ?_⟩
      rw [Nat.add_assoc, Nat.add_comm 1 j, h (j + 1) (by omega), List.getElem?_cons_succ]

/-- A stream given by its bytes reads as them (R62). -/
theorem Stream.read_ofBytes (bs : List Byte) (c : Nat) : (Stream.ofBytes bs).read c = bs[c]? := by
  by_cases h : c < bs.length
  · rw [Stream.read_of_lt (s := Stream.ofBytes bs) h, List.getElem?_eq_getElem h]
    exact congrArg some ((Memory.get_ofBytes bs c).trans (List.getD_eq_getElem bs _ h))
  · rw [List.getElem?_eq_none (Nat.le_of_not_lt h)]
    exact Stream.read_none.2 (Nat.le_of_not_lt h)

/-- A stream holds any stretch of the bytes that give it. -/
theorem Stream.holds_ofBytes (before bs after : List Byte) :
    (Stream.ofBytes (before ++ bs ++ after)).holds before.length bs = true := by
  refine (Stream.holds_iff _ _ _).2 fun j hj => ?_
  rw [Stream.read_ofBytes, List.append_assoc, List.getElem?_append_right (by omega), Nat.add_sub_cancel_left,
    List.getElem?_append_left hj]

/-- A stream holds two bytes exactly when both are read. -/
theorem Stream.holds_pair {s : Stream} {c : Nat} {op b : Byte} :
    s.holds c [op, b] = true ↔ s.read c = some op ∧ s.read (c + 1) = some b := by
  simp [Stream.holds]

/-- A stream holds one byte exactly when it is read. -/
theorem Stream.holds_single {s : Stream} {c : Nat} {op : Byte} :
    s.holds c [op] = true ↔ s.read c = some op := by
  simp [Stream.holds]

/-! ## The four answers of decode; `decode_row` is the good one -/

/-- At or past the end of the stream there is no opcode byte (R69, decision D2). -/
theorem decode_past_end {tab : OpcodeTable} {s : Stream} {c : Nat} (h : s.len ≤ c) :
    decode tab s c = .error (.malformedOperand c) := by
  unfold decode
  rw [Stream.read_none.2 h]

/-- An opcode byte without a row (R67). -/
theorem decode_unlisted {tab : OpcodeTable} {s : Stream} {c : Nat} {op : Byte} (hread : s.read c = some op)
    (hrow : OpcodeTable.row tab op = none) : decode tab s c = .error (.unsupportedOpcode op c) := by
  unfold decode
  simp only [hread, hrow]

/-- A row whose bytes run past the end of the stream (R68). -/
theorem decode_truncated {tab : OpcodeTable} {s : Stream} {c : Nat} {op : Byte} {r : Row}
    (hread : s.read c = some op) (hrow : OpcodeTable.row tab op = some r) (hlong : s.len < c + r.bytes) :
    decode tab s c = .error (.malformedOperand c) := by
  unfold decode
  simp only [hread, hrow]
  rw [if_pos hlong]

/-- Where an instruction's encoding stands, decode answers its Instruction value (R63, R66, R69). -/
theorem decode_of_holds {s : Stream} {c : Nat} {i : Instr} (h : s.holds c (encode i) = true) :
    decode opcodeTable s c = .ok i.toInsn := by
  cases i with
  | brk =>
    have hop := Stream.holds_single.1 h
    exact decode_row hop rfl (Stream.read_some hop)
  | aslZpx b =>
    obtain ⟨hop, hb⟩ := Stream.holds_pair.1 h
    rw [decode_row (r := rowAsl) hop rfl (Stream.read_some hb)]
    simp only [assemble, rowAsl, shortOperand, longOperand, hb, Instr.toInsn]
  | andImm b =>
    obtain ⟨hop, hb⟩ := Stream.holds_pair.1 h
    rw [decode_row (r := rowAnd) hop rfl (Stream.read_some hb)]
    simp only [assemble, rowAnd, shortOperand, longOperand, hb, Instr.toInsn]

end Sys2Proof

namespace Sys2Proof.Machine

/-- The stream is PRG_ROM and its length (R54, R62). -/
theorem State.stream_congr {s t : State} (hrom : s.prgRom = t.prgRom) (hlen : s.prgLen = t.prgLen) :
    s.stream = t.stream := by
  rw [State.stream, State.stream, hrom, hlen]

/-! ## The statements -/

/-- Settles O26: the stream holds the encoding at the end of the bytes before it. -/
theorem decodeOfEncode : Obligations.DecodeOfEncode := fun i before after =>
  ⟨decode_of_holds (Stream.holds_ofBytes before (encode i) after), i.toInstr_toInsn⟩

/-- Settles O27: each of the three Instructions the decoder can accept came from the bytes of its encoding. -/
theorem acceptedBytesAreAnEncoding : Obligations.AcceptedBytesAreAnEncoding := by
  intro s c n h
  obtain ⟨hop, rfl⟩ | ⟨b, hop, hb, rfl⟩ | ⟨b, hop, hb, rfl⟩ := decode_ok_cases h
  · exact ⟨.brk, rfl, Stream.holds_single.2 hop⟩
  · exact ⟨.aslZpx b, rfl, Stream.holds_pair.2 ⟨hop, hb⟩⟩
  · exact ⟨.andImm b, rfl, Stream.holds_pair.2 ⟨hop, hb⟩⟩

/-- Settles O28: the bytes without a row are those other than the three listed. -/
theorem unsupportedOpcodeExactly : Obligations.UnsupportedOpcodeExactly := by
  intro s c c' op
  constructor
  · intro h
    obtain he | ⟨op', hread, hrow, he⟩ := decode_error_cases h
    · cases he
    · cases he
      exact ⟨rfl, hread, row_none.1 hrow⟩
  · rintro ⟨rfl, hread, hunlisted⟩
    exact decode_unlisted hread (row_none.2 hunlisted)

/-- Settles O29: of the four answers of decode, the two for a missing byte are this error. -/
theorem malformedOperandExactly : Obligations.MalformedOperandExactly := by
  intro tab s c c'
  constructor
  · intro h
    by_cases hend : s.len ≤ c
    · cases (decode_past_end hend).symm.trans h
      exact ⟨rfl, .inl hend⟩
    have hread := Stream.read_of_lt (Nat.lt_of_not_le hend)
    cases hrow : OpcodeTable.row tab (s.cells.get c) with
    | none => cases (decode_unlisted hread hrow).symm.trans h
    | some r =>
      by_cases hfit : c + r.bytes ≤ s.len
      · cases (decode_row hread hrow hfit).symm.trans h
      · have hlong := Nat.lt_of_not_le hfit
        cases (decode_truncated hread hrow hlong).symm.trans h
        exact ⟨rfl, .inr ⟨_, r, hread, hrow, hlong⟩⟩
  · rintro ⟨rfl, hend | ⟨op, r, hread, hrow, hlong⟩⟩
    · exact decode_past_end hend
    · exact decode_truncated hread hrow hlong

/-- Settles O30: both states have one stream. -/
theorem decodeReadsOnlyTheStream : Obligations.DecodeReadsOnlyTheStream := by
  intro s t hrom hlen tab c
  rw [State.stream_congr hrom hlen]

/-- Settles O25: the three words are encodings; the three errors are an unlisted byte, a missing operand byte and a
cursor at the end. -/
theorem writtenOutWordsDecode : Obligations.WrittenOutWordsDecode :=
  ⟨decode_of_holds (i := .andImm 0x81#8) (Stream.holds_ofBytes [] [0x29#8, 0x81#8] []),
    decode_of_holds (i := .aslZpx 0x02#8) (Stream.holds_ofBytes [] [0x16#8, 0x02#8] []),
    decode_of_holds (i := .brk) (Stream.holds_ofBytes [] [0x00#8] []),
    decode_unlisted (op := 0xEA#8) (Stream.read_ofBytes _ 0) rfl,
    decode_truncated (op := 0x29#8) (r := rowAnd) (Stream.read_ofBytes _ 1) rfl (by decide),
    decode_past_end (by decide)⟩

end Sys2Proof.Machine
end

section
/-! The invariant (spec/10_state.md R18 to R20): both memories canonical and within their sizes, kept by every step, host
action and placed word; and the statements settled from it. -/

namespace Sys2Proof.Machine

/-! ## What keeps the invariant -/

/-- The invariant speaks of the two memories, PRG_LEN and the mapper only. -/
theorem State.Inv.of_eq {s t : State} (hs : s.Inv) (hram : t.ram = s.ram) (hrom : t.prgRom = s.prgRom)
    (hlen : t.prgLen = s.prgLen) (hmapper : t.mapperId = s.mapperId) : t.Inv where
  ramWf := by rw [hram]; exact hs.ramWf
  ramBelow := by rw [hram]; exact hs.ramBelow
  romWf := by rw [hrom]; exact hs.romWf
  romBelow := by rw [hrom, hlen]; exact hs.romBelow
  mapper := by rw [hmapper]; exact hs.mapper

/-- Every instruction keeps the invariant: only ASL stores, one byte of the zero page (R25). -/
theorem State.Inv.exec {s t : State} (hs : s.Inv) {i : Instr} (h : exec i s = .next t) : t.Inv := by
  obtain ⟨-, -, -, hrom, hlen, hmapper⟩ := exec_common_frame h
  obtain hram | ⟨j, v, hj, hram⟩ := exec_ram h
  · exact hs.of_eq hram hrom hlen hmapper
  · exact (hs.putRam j v (hj.trans (by decide))).of_eq hram hrom hlen hmapper

/-- Every move of a session's machine keeps the invariant (R141). -/
theorem Session.Moved.inv {s t : State} {act : Action} (h : Session.Moved s act t) (hs : s.Inv) : t.Inv := by
  cases h with
  | cycle i _ h => exact hs.exec h
  | stepInsn n i _ h => exact hs.exec h
  | busWrite addr v _ h => exact hs.memWrite h
  | writeReg r v => exact hs.setReg r v
  | writePc v => exact hs.of_eq rfl rfl rfl rfl
  | writeFlag f b => exact hs.setReg .p _
  | decode | busRead | readReg | readPc | readFlag => exact hs

/-! ## The statements -/

/-- Settles O43: a step that answers a next state ran an instruction. -/
theorem stepKeepsTheInvariant : Obligations.StepKeepsTheInvariant := by
  intro s t hs h
  obtain ⟨i, -, he⟩ := step_next h
  exact hs.exec he

/-- Settles O44: nothing is listed in either memory after reset. -/
theorem resetMeetsTheInvariant : Obligations.ResetMeetsTheInvariant where
  ramWf := rfl
  ramBelow := rfl
  romWf := rfl
  romBelow := rfl
  mapper := rfl

/-- Settles O45: an action ends the session or fails with the machine kept, or moves it; placing a word is placing
bytes. -/
theorem hostKeepsTheInvariant : Obligations.HostKeepsTheInvariant := by
  refine ⟨fun se se' act r hs h => ?act, fun s nbits w hs => hs.placeAtFetch _⟩
  obtain ⟨-, hclose, -⟩ | ⟨-, f, hfail⟩ | ⟨-, -, -, hmoved⟩ := Session.act_ok h
  · cases hclose; exact hs
  · cases hfail; exact hs
  · exact hmoved.inv hs

end Sys2Proof.Machine
end

section
/-! The whole effect of each instruction and of instructions in sequence (spec/41_logical.md, spec/42_shift.md,
spec/43_system.md): results, frames, SP, repetition; and the statements settled from them. -/

namespace Sys2Proof.Machine

/-! ## Results and frames -/

/-- A byte is not both zero and negative. -/
theorem negative_and_zero (r : Byte) : (r.getLsbD 7 && (r == 0#8)) = false := by
  cases hz : r == 0#8 with
  | false => exact Bool.and_false _
  | true => rw [Bool.and_true]; exact zero_not_negative r hz

/-- The shift by one as the spec writes it, `2 * old mod 256` (R100). -/
theorem shiftLeft_one_eq (old : Byte) : old <<< 1 = BitVec.ofNat 8 (2 * old.toNat) := shiftLeftOne_eq old

/-- AND reads and writes no memory (R95). -/
theorem exec_andImm_ram {imm : Byte} {s t : State} (h : exec (.andImm imm) s = .next t) : t.ram = s.ram := by
  cases (exec_andImm_eq imm s).symm.trans h; rfl

/-- ASL keeps A (R100). -/
theorem exec_aslZpx_a {base : Byte} {s t : State} (h : exec (.aslZpx base) s = .next t) : t.a = s.a := by
  cases (exec_aslZpx_eq base s).symm.trans h; rfl

/-- The bus sees RAM, PRG_ROM and PRG_LEN only (R34). -/
theorem State.memRead_congr {s t : State} (hram : t.ram = s.ram) (hrom : t.prgRom = s.prgRom)
    (hlen : t.prgLen = s.prgLen) (addr : Word) : t.memRead addr = s.memRead addr := by
  simp only [State.memRead, State.ramByte, State.romByte, hram, hrom, hlen]

/-! ## What an instruction does not read -/

/-- Every instruction does the same whatever SP holds, and keeps it (R12). -/
theorem exec_setReg_sp {i : Instr} {s t : State} (h : exec i s = .next t) (v : Byte) :
    exec i (s.setReg .sp v) = .next (t.setReg .sp v) := by
  cases i with
  | brk => cases (exec_brk_eq s).symm.trans h; rfl
  | aslZpx base => cases (exec_aslZpx_eq base s).symm.trans h; exact exec_aslZpx_eq base (s.setReg .sp v)
  | andImm imm => cases (exec_andImm_eq imm s).symm.trans h; rfl

/-! ## Instructions in sequence -/

/-- One more instruction after a completed sequence. -/
theorem execSeq_concat {is : List Instr} {i : Instr} {s t u : State} (hs : execSeq is s = .next t)
    (hi : exec i t = .next u) : execSeq (is ++ [i]) s = .next u := by
  induction is generalizing s with
  | nil => cases hs; simp only [List.nil_append, execSeq, hi]
  | cons j rest ih =>
    obtain ⟨s', hj⟩ := exec_next j s
    simp only [List.cons_append, execSeq, hj] at hs ⊢
    exact ih hs

/-- A second AND with the same literal writes the same A (R95). -/
theorem exec_andImm_twice_a {imm : Byte} {s t u : State} (ht : exec (.andImm imm) s = .next t)
    (hu : exec (.andImm imm) t = .next u) : u.a = t.a := by
  cases (exec_andImm_eq imm s).symm.trans ht
  cases (exec_andImm_eq imm _).symm.trans hu
  change s.a &&& imm &&& imm = s.a &&& imm
  rw [BitVec.and_assoc, BitVec.and_self]

/-- A second AND with the same literal writes the same status register: Z and N come from the same result (R95). -/
theorem exec_andImm_twice_p {imm : Byte} {s t u : State} (ht : exec (.andImm imm) s = .next t)
    (hu : exec (.andImm imm) t = .next u) : u.p = t.p := by
  have hresult : t.a &&& imm = s.a &&& imm := by
    cases (exec_andImm_eq imm s).symm.trans ht
    exact (BitVec.and_assoc s.a imm imm).trans (congrArg (s.a &&& ·) BitVec.and_self)
  apply BitVec.eq_of_getLsbD_eq
  intro j hj
  rw [exec_andImm_bit hu j hj, exec_andImm_bit ht j hj, hresult]
  split
  · rfl
  · split <;> rfl

/-- ASL repeated: each execution shifts the byte once more and leaves the address alone (R100). -/
theorem execSeq_aslZpx {base old : Byte} {s : State} (hold : s.memRead (eaZpx base s.x) = .ok old) (n : Nat) :
    ∃ t, execSeq (List.replicate n (.aslZpx base)) s = .next t ∧ t.x = s.x ∧
      t.memRead (eaZpx base s.x) = .ok (old <<< n) := by
  induction n with
  | zero => exact ⟨s, rfl, rfl, by rw [BitVec.shiftLeft_zero]; exact hold⟩
  | succ n ih =>
    obtain ⟨t, ht, htx, htread⟩ := ih
    obtain ⟨u, b, hu, hb, huread, -, -, -, hux⟩ := exec_aslZpx_spec base t
    rw [htx] at hb huread
    cases htread.symm.trans hb
    refine ⟨u, ?_, hux.trans htx, by rw [BitVec.shiftLeft_add]; exact huread⟩
    rw [List.replicate_succ']
    exact execSeq_concat ht hu

/-! ## The statements -/

/-- Settles O8: the flags of what AND answers, and where it leaves `pc`. -/
theorem andImmediateResult : Obligations.AndImmediateResult := by
  intro s imm
  obtain ⟨t, ht, ha, hz, hn, -⟩ := exec_andImm_spec imm s
  obtain ⟨hpc, hout⟩ := exec_pc_out ht
  exact ⟨t, ht, ha, ha ▸ hz, ha ▸ hn, hpc, hout⟩

/-- Settles O9: AND's frame is the common one, the status bits it keeps, and all of memory. -/
theorem andImmediateFrame : Obligations.AndImmediateFrame := by
  intro s t imm h
  obtain ⟨hsp, hx, hy, hrom, hlen, hmapper⟩ := exec_common_frame h
  have hram := exec_andImm_ram h
  have hkeep {j : Nat} (hj : j < 8) (hz : j ≠ 1) (hn : j ≠ 7) := exec_andImm_keeps_bit h hj hz hn
  exact ⟨hsp, hx, hy, hkeep (j := 0) (by decide) (by decide) (by decide),
    fun j h2 h6 => hkeep (by omega) (by omega) (by omega), State.memRead_congr hram hrom hlen, hram, hrom, hlen, hmapper⟩

/-- Settles O10: the byte shifted once, in the spec's arithmetic; bit 7 of the result is bit 6 of the byte before. -/
theorem aslZeroPageXResult : Obligations.AslZeroPageXResult := by
  intro s base
  obtain ⟨t, old, ht, hold, hread, hc, hz, hn, -⟩ := exec_aslZpx_spec base s
  obtain ⟨hpc, hout⟩ := exec_pc_out ht
  rw [shiftLeft_one_eq] at hread hz
  exact ⟨t, old, ht, eaZpx_toNat base s.x, hold, hread, hc, hz, hn.trans (shiftLeftOne_bit7 old), hpc, hout⟩

/-- Settles O11: ASL's frame is the common one, A, the status bits it keeps, and every byte but the shifted one. -/
theorem aslZeroPageXFrame : Obligations.AslZeroPageXFrame := by
  intro s t base h
  obtain ⟨hsp, hx, hy, hrom, hlen, hmapper⟩ := exec_common_frame h
  refine ⟨exec_aslZpx_a h, hsp, hx, hy, fun j h2 h6 => ?bits, fun addr haddr => ?memory, hrom, hlen, hmapper⟩
  case bits =>
    have hz : j ≠ 1 := by omega
    have hn : j ≠ 7 := by omega
    have hc : j ≠ 0 := by omega
    exact exec_aslZpx_keeps_bit h (by omega) hz hn hc
  case memory => rw [exec_aslZpx_read h, if_neg haddr]

/-- Settles O12: BRK is the Break trap of its row. -/
theorem brkSignalsOnly : Obligations.BrkSignalsOnly := exec_brk_eq

/-- Settles O18: SP is in the common frame, and a write of SP passes through every instruction. -/
theorem stackPointerIsInert : Obligations.StackPointerIsInert := by
  intro s i v
  obtain ⟨t, ht⟩ := exec_next i s
  obtain ⟨hsp, -, -, -, -, -⟩ := exec_common_frame ht
  exact ⟨t, ht, hsp, exec_setReg_sp ht v⟩

/-- Settles O19: N and Z come from one result byte. -/
theorem neverBothZeroAndNegative : Obligations.NeverBothZeroAndNegative := by
  intro s imm base
  obtain ⟨t, ht, -, htz, htn, -⟩ := exec_andImm_spec imm s
  obtain ⟨u, old, hu, -, -, -, huz, hun, -⟩ := exec_aslZpx_spec base s
  exact ⟨⟨t, ht, by rw [htn, htz, negative_and_zero]⟩, ⟨u, hu, by rw [hun, huz, negative_and_zero]⟩⟩

/-- Settles O20: the second AND answers the A and the status of the first. -/
theorem andTwiceIsAndOnce : Obligations.AndTwiceIsAndOnce := by
  intro s imm
  obtain ⟨t, ht⟩ := exec_next (.andImm imm) s
  obtain ⟨u, hu⟩ := exec_next (.andImm imm) t
  obtain ⟨hpc, -⟩ := exec_pc_out hu
  have honce : execSeq [.andImm imm] s = .next t := execSeq_concat (is := []) rfl ht
  exact ⟨t, u, ht, execSeq_concat honce hu, exec_andImm_twice_a ht hu, exec_andImm_twice_p ht hu, hpc⟩

/-- Settles O21: after seven shifts the eighth writes 0x00 and the flags of 0x00. -/
theorem eightShiftsClearTheByte : Obligations.EightShiftsClearTheByte := by
  intro s base old hold
  refine ⟨execSeq_aslZpx hold, ?eight⟩
  obtain ⟨t, ht, htx, htread⟩ := execSeq_aslZpx hold 7
  obtain ⟨u, b, hu, hb, huread, -, huz, hun, -⟩ := exec_aslZpx_spec base t
  rw [htx] at hb huread
  cases htread.symm.trans hb
  have hclear : old <<< 7 <<< 1 = 0#8 := by rw [← BitVec.shiftLeft_add, BitVec.shiftLeft_eq_zero (le_refl 8)]
  rw [hclear] at huread huz hun
  exact ⟨u, execSeq_concat (is := List.replicate 7 _) ht hu, huread, huz, hun⟩

end Sys2Proof.Machine
end

section
/-! The bus and its two memories (spec/20_memory.md, spec/30_encoding.md R72): the address map, the ROM window, the zero
page, the stream under writes; and the statements settled from them. -/

namespace Sys2Proof.Machine

/-! ## The ROM window -/

/-- An address of the ROM window does not wrap. -/
theorem romWindow_toNat {k : Nat} (hk : k < 32768) : (BitVec.ofNat 16 (0x8000 + k)).toNat = 0x8000 + k := by
  rw [BitVec.toNat_ofNat, Nat.mod_eq_of_lt (by omega)]

/-- The window at 0x8000 shows the image from index 0 (R33). -/
theorem romIndex_window {len : PrgLen} {k : Nat} (hk : k < len.bytes) :
    romIndex len (BitVec.ofNat 16 (0x8000 + k)) = k := by
  have hle := PrgLen.bytes_le len
  rw [romIndex_eq, romWindow_toNat (by omega), Nat.add_sub_cancel_left]
  cases len with
  | kib16 => exact Nat.mod_eq_of_lt hk
  | kib32 => rfl

/-- The window at 0xC000 shows a 16 KiB image again (R33). -/
theorem romIndex_mirror {k : Nat} (hk : k < 16384) : romIndex .kib16 (BitVec.ofNat 16 (0xC000 + k)) = k := by
  have hoffset : 0xC000 + k = 0x8000 + (16384 + k) := by omega
  rw [romIndex_eq, hoffset, romWindow_toNat (by omega), Nat.add_sub_cancel_left]
  exact (Nat.add_mod_left 16384 k).trans (Nat.mod_eq_of_lt hk)

/-- A read through the window at 0x8000 answers the byte of the image (R33, R34). -/
theorem State.memRead_romWindow (s : State) {k : Nat} (hk : k < s.prgLen.bytes) :
    s.memRead (BitVec.ofNat 16 (0x8000 + k)) = .ok (s.romByte k) := by
  have hle := PrgLen.bytes_le s.prgLen
  rw [State.memRead_rom s (0x8000 + k) (by omega) (by omega), romIndex_window hk]

/-- A read through the window at 0xC000 answers the byte of a 16 KiB image (R33, R34). -/
theorem State.memRead_romMirror {s : State} (hlen : s.prgLen = .kib16) {k : Nat} (hk : k < 16384) :
    s.memRead (BitVec.ofNat 16 (0xC000 + k)) = .ok (s.romByte k) := by
  rw [State.memRead_rom s (0xC000 + k) (by omega) (by omega), hlen, romIndex_mirror hk]

/-! ## The address map and the operands -/

/-- Region decode inverted: which range each region is (R31). -/
theorem regionOf_cases (a : Word) :
    (regionOf a = .ram ∧ a.toNat ≤ 0x1FFF) ∨ (regionOf a = .peripheral ∧ 0x2000 ≤ a.toNat ∧ a.toNat ≤ 0x401F) ∨
    (regionOf a = .expansion ∧ 0x4020 ≤ a.toNat ∧ a.toNat ≤ 0x7FFF) ∨ (regionOf a = .rom ∧ 0x8000 ≤ a.toNat) := by
  unfold regionOf
  split
  · exact .inl ⟨rfl, by omega⟩
  · split
    · exact .inr (.inl ⟨rfl, by omega, by omega⟩)
    · split
      · exact .inr (.inr (.inl ⟨rfl, by omega, by omega⟩))
      · exact .inr (.inr (.inr ⟨rfl, by omega⟩))

/-- Address bits 15 to 13 are 0 exactly in the RAM range (R31). -/
theorem extractLsb'_13_3_eq_zero_iff (a : Word) : a.extractLsb' 13 3 = 0#3 ↔ a.toNat ≤ 0x1FFF := by
  have hlt := a.isLt
  rw [← BitVec.toNat_inj, BitVec.extractLsb'_toNat, Nat.shiftRight_eq_div_pow, BitVec.toNat_ofNat]
  omega

/-- Address bit 15 is 1 exactly in the ROM range (R31). -/
theorem getLsbD_15_iff (a : Word) : a.getLsbD 15 = true ↔ 0x8000 ≤ a.toNat := by
  rw [← BitVec.msb_eq_getLsbD_last a, BitVec.msb_eq_true_iff_two_mul_ge]
  omega

/-- A zero-page address is the indexed one with index 0 (R72). -/
theorem eaZp_eq_eaZpx (short : Byte) : eaZp short = eaZpx short 0#8 := by
  rw [eaZp, eaZpx, BitVec.add_zero]

/-! ## The stream and the memories as data -/

/-- A completed step leaves the stream as it was: PRG_ROM and its length are in the common frame (R52, R144). -/
theorem step_stream {s t : State} (h : step s = .next t) : t.stream = s.stream := by
  obtain ⟨i, -, he⟩ := step_next h
  obtain ⟨-, -, -, hrom, hlen, -⟩ := exec_common_frame he
  exact State.stream_congr hrom hlen

/-- A completed bus write leaves the stream as it was: it stores in RAM (R36, R52). -/
theorem State.memWrite_stream {s t : State} {addr : Word} {v : Byte} (h : s.memWrite addr v = .ok t) :
    t.stream = s.stream := by
  obtain ⟨-, rfl⟩ := State.memWrite_ok h
  rfl

/-- Canonical memories of one size that read alike below it are equal. -/
theorem Memory.ext_below {n : Nat} {m m' : Memory} (hm : m.wf = true) (hm' : m'.wf = true)
    (hb : Memory.below n m = true) (hb' : Memory.below n m' = true) (h : ∀ i, i < n → m.get i = m'.get i) : m = m' := by
  refine Memory.ext m m' hm hm' fun i => ?_
  by_cases hi : i < n
  · exact h i hi
  · rw [Memory.get_of_below hb (Nat.le_of_not_lt hi), Memory.get_of_below hb' (Nat.le_of_not_lt hi)]

/-! ## The statements -/

/-- Settles O4: both windows of a 16 KiB image, the one of a 32 KiB image, and the bound of the index. -/
theorem romWindowReads : Obligations.RomWindowReads := by
  intro s
  refine ⟨fun hlen k => ⟨s.memRead_romWindow ?low, State.memRead_romMirror hlen k.isLt⟩,
    fun hlen k => s.memRead_romWindow ?full, romIndex_lt s.prgLen⟩
  case low => rw [hlen]; exact k.isLt
  case full => rw [hlen]; exact k.isLt

/-- Settles O5: each region is its own range, and the ranges are disjoint. -/
theorem regionDecodeTable : Obligations.RegionDecodeTable := by
  intro addr
  rw [extractLsb'_13_3_eq_zero_iff, getLsbD_15_iff]
  obtain ⟨hr, h⟩ | ⟨hr, h⟩ | ⟨hr, h⟩ | ⟨hr, h⟩ := regionOf_cases addr
  all_goals
    simp only [hr, reduceCtorEq, true_iff, false_iff]
    omega

/-- Settles O6: a zero-page address of either mode is an indexed one, which is a RAM address. -/
theorem zeroPageNeverFails : Obligations.ZeroPageNeverFails := by
  intro s short x v
  rw [eaZp_eq_eaZpx]
  exact ⟨⟨_, s.memRead_eaZpx short x⟩, ⟨_, s.memWrite_eaZpx short x v⟩, ⟨_, s.memRead_eaZpx short 0#8⟩,
    ⟨_, s.memWrite_eaZpx short 0#8 v⟩⟩

/-- Settles O7: neither a bus write nor a step changes the stream. -/
theorem storesNeverReachTheStream : Obligations.StoresNeverReachTheStream := by
  refine ⟨fun s t addr v h c => ?write, fun s t h c => ?step⟩
  case write => rw [State.memWrite_stream h]
  case step => rw [step_stream h]

/-- Settles O22: the zero-page address is the operand's number, the indexed one the sum modulo 256. -/
theorem operandResolutionTable : Obligations.OperandResolutionTable := by
  intro short x long
  have hzp : eaZp short = BitVec.ofNat 16 short.toNat := (BitVec.ofNat_toNat 16 short).symm
  have hzpx : eaZpx short x = BitVec.ofNat 16 ((short.toNat + x.toNat) % 256) := by
    rw [← eaZpx_toNat, BitVec.ofNat_toNat, BitVec.setWidth_eq]
  rw [← hzp, ← hzpx]
  exact ⟨rfl, rfl, rfl, rfl, rfl, rfl, rfl, rfl, rfl⟩

/-- Settles O46: RAM bytes are read at their own addresses, image bytes in the ROM window, which leaves no byte of either
memory unread. -/
theorem equalReadsMeanEqualStates : Obligations.EqualReadsMeanEqualStates := by
  intro s t hs ht hpc hreg hlen hout hread
  have hram : s.ram = t.ram := by
    refine Memory.ext_below hs.ramWf ht.ramWf hs.ramBelow ht.ramBelow fun i hi => ?_
    have h := hread (BitVec.ofNat 16 (i + 0x0800 * 0))
    rw [s.memRead_mirror hi (by decide), t.memRead_mirror hi (by decide)] at h
    exact Except.ok.inj h
  have hrom : s.prgRom = t.prgRom := by
    refine Memory.ext_below hs.romWf ht.romWf hs.romBelow (hlen ▸ ht.romBelow) fun i hi => ?_
    have h := hread (BitVec.ofNat 16 (0x8000 + i))
    rw [s.memRead_romWindow hi, t.memRead_romWindow (hlen ▸ hi)] at h
    exact Except.ok.inj h
  exact State.eq_of_fields hpc (hreg .sp) (hreg .a) (hreg .x) (hreg .y) (hreg .p) hram hrom hlen
    (hs.mapper.trans ht.mapper.symm) hout

end Sys2Proof.Machine
end

section
/-! The cycle (spec/40_execution_cycle.md R80 to R89): which outcome each stretch of bytes at `pc` has, what a completed
cycle moves and keeps, that runs end, and the statements settled from them. -/

namespace Sys2Proof.Machine

/-! ## What a step does with the bytes at `pc` -/

/-- Where an instruction's encoding stands at `pc`, the step is its `exec` (R81, R82). -/
theorem step_of_holds {s : State} {i : Instr} (h : s.stream.holds s.cursor (encode i) = true) : step s = exec i s :=
  step_of_fetch (decode_of_holds h)

/-- A decoded Instruction is handed to the step (R81). -/
theorem step_of_decode {s : State} {n : Insn} (h : s.fetch = .ok n) : step s = stepInsn n s := by
  unfold step cycle
  rw [h]

/-- The byte of PRG_ROM below its length is what the stream reads (R62). -/
theorem State.stream_read (s : State) {c : Nat} (h : c < s.prgLen.bytes) : s.stream.read c = some (s.romByte c) :=
  Stream.read_of_lt (s := s.stream) h

/-- A step at or past the end of PRG_ROM (R68, decision D2). -/
theorem step_past_end {s : State} (h : s.prgLen.bytes ≤ s.cursor) : step s = .fault (.malformedOperand s.cursor) :=
  step_of_error (decode_past_end h)

/-- A step on a byte without a row (R67). -/
theorem step_unlisted {s : State} {op : Byte} (hread : s.stream.read s.cursor = some op)
    (hrow : OpcodeTable.row opcodeTable op = none) : step s = .fault (.unsupportedOpcode (some ⟨op, s.cursor⟩)) :=
  step_of_error (decode_unlisted hread hrow)

/-- A step on a listed byte whose operand byte would lie at or past the end of PRG_ROM (R68). -/
theorem step_truncated {s : State} {op : Byte} {r : Row} (hread : s.stream.read s.cursor = some op)
    (hrow : OpcodeTable.row opcodeTable op = some r) (hbytes : r.bytes = 2) (h : s.prgLen.bytes ≤ s.cursor + 1) :
    step s = .fault (.malformedOperand s.cursor) := by
  have hlong : s.stream.len < s.cursor + r.bytes := by rw [hbytes]; exact Nat.lt_succ_of_le h
  exact step_of_error (decode_truncated hread hrow hlong)

/-- A step on a two-byte instruction whose operand byte lies in PRG_ROM (R81, R82). -/
theorem step_of_pair {s : State} {op : Byte} {i : Instr} (hread : s.stream.read s.cursor = some op)
    (h : s.cursor + 1 < s.prgLen.bytes) (hencode : encode i = [op, s.romByte (s.cursor + 1)]) : step s = exec i s := by
  refine step_of_holds ?_
  rw [hencode]
  exact Stream.holds_pair.2 ⟨hread, s.stream_read h⟩

/-! ## Instruction values that stand for no instruction, and placed words -/

/-- An ill-formed Instruction value stands for no instruction (R89). -/
theorem toInstr_of_illFormed {n : Insn} (h : n.wellFormed opcodeTable = false) : n.toInstr = none := by
  unfold Insn.toInstr
  rw [h]
  rfl

/-- The step on a tag that has a clause runs the clause (R82). -/
theorem stepInsn_of_clause {n : Insn} (h : ∀ k, n.opCode ≠ .other k) (s : State) : stepInsn n s = runClause n s := by
  unfold stepInsn
  cases htag : n.opCode with
  | other k => exact absurd htag (h k)
  | brk | aslZeroPageX | andImmediate => rfl

/-- The bytes of a 16-bit table word, the opcode byte the low one. -/
theorem tableBytes_pair (op b : Byte) : tableBytes 16 (op.toNat + 256 * b.toNat) = [op, b] := by
  have hop := op.isLt
  have hb := b.isLt
  have hword : (op.toNat + 256 * b.toNat) % 2 ^ 16 = op.toNat + 256 * b.toNat := Nat.mod_eq_of_lt (by omega)
  have hlow : BitVec.ofNat 8 (op.toNat + 256 * b.toNat) = op := by
    apply BitVec.eq_of_toNat_eq
    rw [BitVec.toNat_ofNat]
    omega
  have hhigh : (op.toNat + 256 * b.toNat) / 256 = b.toNat := by omega
  rw [tableBytes, hword, hlow, hhigh, BitVec.ofNat_toNat, BitVec.setWidth_eq]

/-- A table word that begins with an instruction's encoding decodes to it. -/
theorem decodeTableWord_of_bytes {nbits w : Nat} {i : Instr} {after : List Byte}
    (h : tableBytes nbits w = encode i ++ after) : decodeTableWord nbits w = some i := by
  have hdecode : decode opcodeTable (Stream.ofBytes (encode i ++ after)) 0 = .ok i.toInsn :=
    decode_of_holds (Stream.holds_ofBytes [] (encode i) after)
  rw [decodeTableWord, h, hdecode]
  exact i.toInstr_toInsn

/-- A placed table word that begins with an instruction's encoding is what the next step runs (log entry 19). -/
theorem step_withFetchWord {nbits w : Nat} {i : Instr} {after : List Byte} (h : tableBytes nbits w = encode i ++ after)
    (s : State) : step (s.withFetchWord nbits w) = exec i (s.withFetchWord nbits w) := by
  have hlen : (encode i ++ after).length = 2 := by rw [← h]; rfl
  refine step_of_holds ((Stream.holds_iff _ _ _).2 fun j hj => ?_)
  have hlt : j < (encode i ++ after).length := by rw [List.length_append]; omega
  obtain ⟨hread, -⟩ := s.placeAtFetch_read (encode i ++ after) (by omega) j hlt
  rw [State.withFetchWord, h, hread, List.getD_eq_getElem _ _ hlt,
    List.getElem_append_left hj, List.getElem?_eq_getElem hj]

/-! ## What a completed cycle moves, keeps and does not read -/

/-- The three instructions by how far they move `pc` and what they return (R83, R84, R105). -/
theorem exec_out_cases {i : Instr} {s t : State} (h : exec i s = .next t) :
    (t.out = some (.brk 7) ∧ i.toInsn.bytes = 1) ∨
    ((t.out = some (.ok 2) ∨ t.out = some (.ok 6)) ∧ i.toInsn.bytes = 2) := by
  obtain ⟨-, hout⟩ := exec_pc_out h
  cases i with
  | brk => exact .inl ⟨hout, rfl⟩
  | aslZpx base => exact .inr ⟨.inr hout, rfl⟩
  | andImm imm => exact .inr ⟨.inl hout, rfl⟩

/-- No instruction changes a byte outside the zero page and its mirrors (R25). -/
theorem exec_memRead_of_not_zeroPage {i : Instr} {s t : State} (h : exec i s = .next t) {addr : Word}
    (haddr : 0x1FFF < addr.toNat ∨ 0x0100 ≤ addr.toNat % 0x0800) : t.memRead addr = s.memRead addr := by
  cases i with
  | brk => cases (exec_brk_eq s).symm.trans h; rfl
  | aslZpx base =>
    have hlt := eaZpx_lt base s.x
    rw [exec_aslZpx_read h, if_neg (by omega)]
  | andImm imm => cases (exec_andImm_eq imm s).symm.trans h; rfl

/-- No instruction reads what the last cycle returned (R84). -/
theorem exec_out_irrelevant (i : Instr) (s : State) (o : Option Returned) : exec i { s with out := o } = exec i s := by
  cases i with
  | brk => rfl
  | aslZpx base => exact (exec_aslZpx_eq base { s with out := o }).trans (exec_aslZpx_eq base s).symm
  | andImm imm => rfl

/-! ## Runs end -/

/-- An end of a run that the spec names: a Break, or a decode error at the `pc` of the state before it (R140). -/
inductive RunEnd.Proper : RunEnd → Prop where
  | broke (t : State) (n : Nat) (h : t.out = some (.brk n)) : Proper (.completed t)
  | malformed (t : State) : Proper (.failed t (.malformedOperand t.cursor))
  | unsupported (t : State) (op : Byte) : Proper (.failed t (.unsupportedOpcode (some ⟨op, t.cursor⟩)))

/-- A run whose next step faults ends there (R140). -/
theorem runToEnd_fault {s : State} {f : Fault} (h : step s = .fault f) (k : Nat) : runToEnd (k + 1) s = .failed s f := by
  simp only [runToEnd, h]

/-- A run whose next step returns a Break ends there (R140). -/
theorem runToEnd_break {s t : State} {n : Nat} (h : step s = .next t) (hout : t.out = some (.brk n)) (k : Nat) :
    runToEnd (k + 1) s = .completed t := by
  simp only [runToEnd, h, hout]

/-- A run whose next step completes well goes on (R140). -/
theorem runToEnd_ok {s t : State} {n : Nat} (h : step s = .next t) (hout : t.out = some (.ok n)) (k : Nat) :
    runToEnd (k + 1) s = runToEnd k t := by
  simp only [runToEnd, h, hout]

/-- The faults of a step: the two decode errors, at `pc` (R67, R68, R81). -/
theorem step_fault_cases {s : State} {f : Fault} (h : step s = .fault f) :
    f = .malformedOperand s.cursor ∨ ∃ op, f = .unsupportedOpcode (some ⟨op, s.cursor⟩) := by
  obtain ⟨e, he, rfl⟩ := step_fault h
  obtain rfl | ⟨op, -, -, rfl⟩ := decode_error_cases he
  · exact .inl rfl
  · exact .inr ⟨op, rfl⟩

/-- How a completed step moves `pc`, by what it returns, and that it stays within PRG_LEN (R11, R83). -/
theorem step_next_cases {s t : State} (h : step s = .next t) :
    ((t.out = some (.brk 7) ∧ t.pc.toNat = s.pc.toNat + 1) ∨
     ((t.out = some (.ok 2) ∨ t.out = some (.ok 6)) ∧ t.pc.toNat = s.pc.toNat + 2)) ∧
    t.pc.toNat ≤ s.prgLen.bytes := by
  obtain ⟨i, -, he, hpc, hle⟩ := step_next_pc h
  refine ⟨?_, hle⟩
  obtain ⟨hout, hbytes⟩ | ⟨hout, hbytes⟩ := exec_out_cases he
  · exact .inl ⟨hout, by rw [hpc, hbytes]⟩
  · exact .inr ⟨hout, by rw [hpc, hbytes]⟩

/-- Every cycle but the last moves `pc` two further, so a run ends in the cycle that meets the end of PRG_ROM at the
latest. -/
theorem runToEnd_proper (k : Nat) (s : State) (hk : s.prgLen.bytes ≤ s.pc.toNat + 2 * k) :
    (runToEnd (k + 1) s).Proper := by
  induction k generalizing s with
  | zero =>
    rw [runToEnd_fault (step_past_end hk)]
    exact .malformed s
  | succ k ih =>
    obtain ⟨i, t, -, he, h⟩ | ⟨e, -, h⟩ := step_total s
    · obtain ⟨⟨hout, -⟩ | ⟨hout, hpc⟩, -⟩ := step_next_cases h
      · rw [runToEnd_break h hout]
        exact .broke t 7 hout
      · obtain ⟨-, -, -, -, hlen, -⟩ := exec_common_frame he
        have hgoesOn : runToEnd (k + 2) s = runToEnd (k + 1) t := by
          obtain hout | hout := hout
          · exact runToEnd_ok h hout (k + 1)
          · exact runToEnd_ok h hout (k + 1)
        rw [hgoesOn]
        exact ih t (by rw [hlen, hpc]; omega)
    · rw [runToEnd_fault h]
      obtain hf | ⟨op, hf⟩ := step_fault_cases h
      · rw [hf]; exact .malformed s
      · rw [hf]; exact .unsupported s op

/-! ## The statements -/

/-- Settles O33: the encoding at `pc` decodes to its instruction. -/
theorem stepRunsTheEncodedInstruction : Obligations.StepRunsTheEncodedInstruction := fun _ _ => step_of_holds

/-- Settles O34: past the end, the three listed bytes with their operand byte present or not, and every other byte. -/
theorem cycleOutcomeByBytes : Obligations.CycleOutcomeByBytes := by
  intro s
  by_cases hend : s.prgLen.bytes ≤ s.pc.toNat
  · rw [if_pos hend]
    exact step_past_end hend
  rw [if_neg hend]
  have hread : s.stream.read s.cursor = some (s.romByte s.pc.toNat) := s.stream_read (Nat.lt_of_not_le hend)
  by_cases hbrk : s.romByte s.pc.toNat = 0x00#8
  · rw [if_pos hbrk]
    exact step_of_holds (Stream.holds_single.2 (hbrk ▸ hread))
  rw [if_neg hbrk]
  by_cases hasl : s.romByte s.pc.toNat = 0x16#8
  · rw [if_pos hasl]
    rw [hasl] at hread
    split
    · next hlast => exact step_truncated (r := rowAsl) hread rfl rfl hlast
    · next hfits => exact step_of_pair hread (Nat.lt_of_not_le hfits) rfl
  rw [if_neg hasl]
  by_cases hand : s.romByte s.pc.toNat = 0x29#8
  · rw [if_pos hand]
    rw [hand] at hread
    split
    · next hlast => exact step_truncated (r := rowAnd) hread rfl rfl hlast
    · next hfits => exact step_of_pair hread (Nat.lt_of_not_le hfits) rfl
  rw [if_neg hand]
  exact step_unlisted hread (row_none.2 ⟨hbrk, hasl, hand⟩)

/-- Settles O35: the faults of a step, and that a step is total. -/
theorem cycleFaultsOnlyInDecode : Obligations.CycleFaultsOnlyInDecode := by
  refine fun s => ⟨fun f => step_fault_cases, fun r h => ?_⟩
  obtain ⟨i, t, -, -, hs⟩ | ⟨e, -, hs⟩ := step_total s
  · cases hs.symm.trans h
  · cases hs.symm.trans h

/-- Settles O36: the move of `pc` by what the step returns. -/
theorem pcStrictlyIncreases : Obligations.PcStrictlyIncreases := fun _ _ => step_next_cases

/-- Settles O37: a completed step ran an instruction, whose frame and stores these are. -/
theorem cycleChangesOnlyTheZeroPage : Obligations.CycleChangesOnlyTheZeroPage := by
  intro s t h
  obtain ⟨i, -, he⟩ := step_next h
  obtain ⟨hsp, hx, hy, hrom, hlen, hmapper⟩ := exec_common_frame he
  exact ⟨hsp, hx, hy, hrom, hlen, hmapper, fun addr => exec_memRead_of_not_zeroPage he⟩

/-- Settles O38: the fetch sees PRG_ROM and `pc` only, and no instruction reads the last return. -/
theorem returnedCountIsNeverRead : Obligations.ReturnedCountIsNeverRead := by
  intro s o
  have hfetch : State.fetch { s with out := o } = s.fetch := rfl
  obtain ⟨i, t, hf, -, -⟩ | ⟨e, hf, hs⟩ := step_total s
  · rw [step_of_fetch hf, step_of_fetch (hfetch.trans hf), exec_out_irrelevant]
  · rw [hs, step_of_error (hfetch.trans hf)]

/-- Settles O39: PRG_LEN cycles are more than half as many as its bytes, so the run meets a proper end. -/
theorem everyRunEnds : Obligations.EveryRunEnds := by
  intro s
  have hge := PrgLen.bytes_ge s.prgLen
  obtain ⟨k, hk⟩ : ∃ k, s.prgLen.bytes = k + 1 := ⟨s.prgLen.bytes - 1, by omega⟩
  have hend := runToEnd_proper k s (by omega)
  rw [hk]
  generalize runToEnd (k + 1) s = e at hend
  cases hend with
  | broke t n h => exact .inl ⟨t, n, rfl, h⟩
  | malformed t => exact .inr (.inl ⟨t, _, rfl, rfl⟩)
  | unsupported t op => exact .inr (.inr ⟨t, _, rfl, rfl⟩)

/-- Settles O31: the two answers of the fetch. -/
theorem cycleIsDecodeThenStep : Obligations.CycleIsDecodeThenStep := fun _ =>
  ⟨fun _ => step_of_decode, fun _ => step_of_error⟩

/-- Settles O32: an Instruction value that stands for an instruction is that instruction's. -/
theorem stepRunsTheDecodedInstruction : Obligations.StepRunsTheDecodedInstruction := by
  intro s n i hdecode hn
  rw [Insn.toInstr_some hn] at hdecode
  exact step_of_fetch hdecode

/-- Settles O40: the dispatch on such a tag. -/
theorem tagWithoutClauseFaults : Obligations.TagWithoutClauseFaults := by
  intro s n k h
  unfold stepInsn
  rw [h]

/-- Settles O41: a tag with a clause runs it, and the clause executes exactly the values of instructions. -/
theorem stepNeedsAWellFormedInstruction : Obligations.StepNeedsAWellFormedInstruction := by
  intro s n hclause
  refine ⟨fun hw => ?wellFormed, fun hw => ?illFormed⟩
  case wellFormed =>
    obtain ⟨i, rfl⟩ := Insn.eq_toInsn hw
    exact ⟨i, rfl, stepInsn_toInsn i s⟩
  case illFormed => rw [stepInsn_of_clause hclause, runClause, toInstr_of_illFormed hw]

/-- Settles O42: the three table words begin with the encodings; BRK's has a second byte that it does not use. -/
theorem placedTableWordRuns : Obligations.PlacedTableWordRuns := by
  intro s b
  have hbrk : tableBytes 8 0x00 = encode .brk ++ [0x00#8] := by decide
  have hasl : tableBytes 16 (0x16 + 256 * b.toNat) = encode (.aslZpx b) ++ [] := tableBytes_pair 0x16#8 b
  have hand : tableBytes 16 (0x29 + 256 * b.toNat) = encode (.andImm b) ++ [] := tableBytes_pair 0x29#8 b
  exact ⟨decodeTableWord_of_bytes hbrk, step_withFetchWord hbrk s, decodeTableWord_of_bytes hasl,
    step_withFetchWord hasl s, decodeTableWord_of_bytes hand, step_withFetchWord hand s⟩

end Sys2Proof.Machine
end

section
/-! Construction and the host's session (spec/20_memory.md R41 to R43, spec/60_exceptions.md R116 to R124,
spec/70_reset_and_hazards.md R135 to R142), and the statements settled from them. -/

namespace Sys2Proof.Machine

/-! ## Construction -/

/-- A mapper other than 0 fails whatever the buffer (R42). -/
theorem construct_mapper {mapperId : Nat} (h : mapperId ≠ 0) (rom : List Byte) (par : PowerOn) :
    construct mapperId rom par = .fault (.unsupportedMapper mapperId) := if_neg h

/-- Mapper 0 with a buffer of an admitted length constructs (R43, R135). -/
theorem construct_admitted {rom : List Byte} {len : PrgLen} (h : prgLenOf rom.length = some len) (par : PowerOn) :
    construct 0 rom par = .next (State.powerOn par (Memory.ofBytes rom) len) := by
  simp only [construct, Config.supportedMapper, if_true, h]

/-- Mapper 0 with a buffer of any other length is refused (R43, decision D13). -/
theorem construct_refused {rom : List Byte} (h : prgLenOf rom.length = none) (par : PowerOn) :
    construct 0 rom par = .refused (.unsupportedPrgLength rom.length) := by
  simp only [construct, Config.supportedMapper, if_true, h]

/-- The two admitted lengths (R43). -/
theorem prgLenOf_admitted {n : Nat} (h : n = 16384 ∨ n = 32768) : ∃ len, prgLenOf n = some len := by
  obtain rfl | rfl := h
  · exact ⟨.kib16, rfl⟩
  · exact ⟨.kib32, rfl⟩

/-- No other length is admitted (R43). -/
theorem prgLenOf_none {n : Nat} (h16 : n ≠ 16384) (h32 : n ≠ 32768) : prgLenOf n = none := by
  rw [prgLenOf, if_neg h16, if_neg h32]

/-- Each byte of the buffer is the image's byte at its index (R135). -/
theorem romByte_powerOn (par : PowerOn) (rom : List Byte) (len : PrgLen) {i : Nat} (hi : i < rom.length) :
    some ((State.powerOn par (Memory.ofBytes rom) len).romByte i) = rom[i]? := by
  rw [List.getElem?_eq_getElem hi, ← List.getD_eq_getElem rom Memory.unlisted hi]
  exact congrArg some (Memory.get_ofBytes rom i)

/-- Each byte of RAM is RAM_INIT's at its index (R135). -/
theorem ramByte_powerOn (par : PowerOn) (rom : Memory) (len : PrgLen) (i : Fin 2048) :
    (State.powerOn par rom len).ramByte i.val = par.ramInit[i.val] := by
  have hi : i.val < par.ramInit.toList.length := by rw [Vector.length_toList]; exact i.isLt
  refine (Memory.get_ofBytes par.ramInit.toList i.val).trans ?_
  rw [List.getD_eq_getElem _ _ hi, Vector.getElem_toList]

/-! ## Actions by the status of the session -/

/-- On a live session every action is defined (R141). -/
theorem Session.act_live {se : Session} (h : se.status = .live) (act : Action) : se.act act = se.actLive act := by
  unfold Session.act
  rw [h]

/-- On a faulted session every action but the end is refused (R116). -/
theorem Session.act_faulted {se : Session} {f : Fault} (h : se.status = .faulted f) {act : Action}
    (hact : act ≠ .endSession) : se.act act = .error .sessionOver := by
  unfold Session.act
  rw [h]
  exact if_neg hact

/-- On an ended session every action is refused (R137). -/
theorem Session.act_ended {se : Session} {recorded : Option Fault} (h : se.status = .ended recorded) (act : Action) :
    se.act act = .error .sessionOver := by
  unfold Session.act
  rw [h]

/-- A cycle of a live session is a step of its machine (R141). -/
theorem Session.act_cycle {se : Session} (h : se.status = .live) : se.act .cycle = se.ofOutcome (step se.machine) :=
  Session.act_live h .cycle

/-- A session after a step that returned a value (R124). -/
theorem Session.complete_of_out {se : Session} {t : State} {r : Returned} (h : t.out = some r) :
    se.complete t = (⟨t, se.status, se.totalCycles + r.cycles⟩, .returned r) := by
  unfold Session.complete
  rw [h]

/-- A session that has recorded a fault completes only its end (R116). -/
theorem Session.act_of_fault {se se' : Session} {act : Action} {r : Reply} {f : Fault} (hf : se.status.fault = some f)
    (h : se.act act = .ok (se', r)) : act = .endSession ∧ r = .done ∧ se' = { se with status := .ended (some f) } := by
  have hlive : se.status ≠ .live := fun hl => by rw [hl] at hf; cases hf
  obtain ⟨hact, hclose, -⟩ | ⟨hl, -⟩ | ⟨hl, -⟩ := Session.act_ok h
  · rw [Session.close, hf] at hclose
    cases hclose
    exact ⟨hact, rfl, rfl⟩
  · exact absurd hl hlive
  · exact absurd hl hlive

/-- After a list of actions that begins with a completed one (R141). -/
theorem Session.actAll_cons {se se' : Session} {act : Action} {rest : List Action}
    (h : se.actAll (act :: rest) = .ok se') : ∃ se₁ r, se.act act = .ok (se₁, r) ∧ se₁.actAll rest = .ok se' := by
  unfold Session.actAll at h
  split at h
  · next se₁ r hact => exact ⟨se₁, r, hact, h⟩
  · cases h

/-- Whatever list of actions a session that has recorded a fault completes, the fault stays recorded and the machine and
the total stay as they are (R116). -/
theorem Session.actAll_of_fault {se se' : Session} {acts : List Action} {f : Fault} (hf : se.status.fault = some f)
    (h : se.actAll acts = .ok se') :
    se'.status.fault = some f ∧ se'.machine = se.machine ∧ se'.totalCycles = se.totalCycles := by
  induction acts generalizing se with
  | nil => cases h; exact ⟨hf, rfl, rfl⟩
  | cons act rest ih =>
    obtain ⟨se₁, r, hact, hrest⟩ := Session.actAll_cons h
    obtain ⟨-, -, rfl⟩ := Session.act_of_fault hf hact
    exact ih (se := { se with status := .ended (some f) }) rfl hrest

/-! ## SP under the host's actions -/

/-- An action that writes no SP leaves it (R12). -/
theorem Action.spAfter_of_ne {act : Action} (h : ∀ v, act ≠ .writeReg .sp v) (sp : Byte) : act.spAfter sp = sp := by
  unfold Action.spAfter
  split
  · next v => exact absurd rfl (h v)
  · rfl

/-- A move of a session's machine makes of SP what its action says (R12, R141). -/
theorem Session.Moved.sp_eq {s t : State} {act : Action} (h : Session.Moved s act t) : t.sp = act.spAfter s.sp := by
  cases h with
  | cycle i _ h => obtain ⟨hsp, -⟩ := exec_common_frame h; exact hsp
  | stepInsn n i _ h => obtain ⟨hsp, -⟩ := exec_common_frame h; exact hsp
  | busWrite addr v _ h => obtain ⟨-, rfl⟩ := State.memWrite_ok h; rfl
  | writeReg r v => cases r with
    | sp | a | x | y | p => rfl
  | decode | busRead | readReg | readPc | writePc | readFlag | writeFlag => rfl

/-- A failing action is no write of SP: that write is defined on every live session (R141). -/
theorem Session.act_fail_ne_writeSp {se se' : Session} {act : Action} {r : Reply} {f : Fault}
    (hlive : se.status = .live) (h : se.act act = .ok (se', r)) (hfail : (se', r) = se.fail f) (v : Byte) :
    act ≠ .writeReg .sp v := by
  rintro rfl
  rw [Session.act_live hlive, hfail] at h
  have hreply : Reply.done = .error f := congrArg Prod.snd (Except.ok.inj h)
  cases hreply

/-- A completed action makes of SP what it says (R12, R141). -/
theorem Session.act_sp {se se' : Session} {act : Action} {r : Reply} (h : se.act act = .ok (se', r)) :
    se'.machine.sp = act.spAfter se.machine.sp := by
  obtain ⟨rfl, hclose, -⟩ | ⟨hlive, f, hfail⟩ | ⟨-, -, -, hmoved⟩ := Session.act_ok h
  · cases hclose; rfl
  · rw [Action.spAfter_of_ne (Session.act_fail_ne_writeSp hlive h hfail)]
    cases hfail; rfl
  · exact hmoved.sp_eq

/-! ## The statements -/

/-- Settles O47: the mapper check, then the length; the constructed state is `State.powerOn`. -/
theorem constructionOutcome : Obligations.ConstructionOutcome := by
  intro mapperId rom par
  refine ⟨fun h => construct_mapper h rom par, fun h0 hlen => ?admitted,
    fun h0 h16 h32 => h0 ▸ construct_refused (prgLenOf_none h16 h32) par⟩
  subst h0
  obtain ⟨len, hlen⟩ := prgLenOf_admitted hlen
  have hbytes : len.bytes = rom.length := prgLenOf_some hlen
  exact ⟨_, construct_admitted hlen par, rfl, rfl, rfl, rfl, rfl, rfl, rfl, rfl, hbytes,
    fun i => romByte_powerOn par rom len, ramByte_powerOn par _ len, powerOn_inv par rom len hbytes⟩

/-- Settles O48: both values stand in `State.reset`. -/
theorem resetStackPointer : Obligations.ResetStackPointer := ⟨rfl, rfl⟩

/-- Settles O49: a buffer and a RAM_INIT of 0x00 list nothing. -/
theorem resetIsAConstruction : Obligations.ResetIsAConstruction := by
  have hlen : prgLenOf (List.replicate 16384 0x00#8).length = some .kib16 := by rw [List.length_replicate]; rfl
  have hrom : Memory.ofBytes (List.replicate 16384 0x00#8) = [] := Memory.ofBytesFrom_replicate 16384 0
  have hram : Memory.ofBytes PowerOn.zero.ramInit.toList = [] := by
    rw [PowerOn.zero, Vector.toList_replicate]
    exact Memory.ofBytesFrom_replicate 2048 0
  refine (construct_admitted hlen PowerOn.zero).trans ?_
  rw [State.powerOn, hrom, hram]
  rfl

/-- Settles O50: the refusals of a faulted and of an ended session. -/
theorem faultIsTerminal : Obligations.FaultIsTerminal := fun _ act =>
  ⟨fun _ hs => Session.act_faulted hs, fun _ hs => Session.act_ended hs act⟩

/-- Settles O51: of all that an action can do, only failing answers an error. -/
theorem faultIsPrecise : Obligations.FaultIsPrecise := by
  intro se se' act f h
  obtain ⟨-, hclose, -⟩ | ⟨-, g, hfail⟩ | ⟨-, -, hnoError, -⟩ := Session.act_ok h
  · cases hclose
  · cases hfail; rfl
  · exact absurd rfl (hnoError f)

/-- Settles O52: a completed step returned one of the three counts, and the session adds it. -/
theorem totalCyclesAccumulates : Obligations.TotalCyclesAccumulates := by
  intro se t hlive h
  have hact {r : Returned} (hout : t.out = some r) :
      se.act .cycle = .ok (⟨t, .live, se.totalCycles + r.cycles⟩, .returned r) := by
    rw [Session.act_cycle hlive, h, Session.ofOutcome, Session.complete_of_out hout, hlive]
  obtain ⟨⟨hout, -⟩ | ⟨hout | hout, -⟩, -⟩ := step_next_cases h
  · exact ⟨_, hout, hact hout, .inl rfl⟩
  · exact ⟨_, hout, hact hout, .inr (.inr rfl)⟩
  · exact ⟨_, hout, hact hout, .inr (.inl rfl)⟩

/-- Settles O53: the session makes a fault of the step's outcome its own. -/
theorem cycleFaultReachesTheHost : Obligations.CycleFaultReachesTheHost := by
  intro se f hlive h
  rw [Session.act_cycle hlive, h]
  rfl

/-- Settles O54: the end keeps the fault, the machine and the total, and so does every list of actions. -/
theorem faultIsNeverCleared : Obligations.FaultIsNeverCleared := by
  intro se f hf
  refine ⟨fun act se' r h => ?_, fun acts se' => Session.actAll_of_fault hf⟩
  obtain ⟨hact, hr, rfl⟩ := Session.act_of_fault hf h
  exact ⟨hact, hr, rfl, rfl, rfl⟩

/-- Settles O55: by induction on the actions, each of which makes of SP what it says. -/
theorem onlyTheHostChangesSp : Obligations.OnlyTheHostChangesSp := by
  intro acts
  induction acts with
  | nil => intro se se' h; cases h; rfl
  | cons act rest ih =>
    intro se se' h
    obtain ⟨se₁, r, hact, hrest⟩ := Session.actAll_cons h
    rw [ih se₁ se' hrest, Session.act_sp hact, Action.spAfterAll]

end Sys2Proof.Machine
end
